-- ==== Sys2Proof/Word.lean ====
section
/-! DEFINITION. The word types of the Aptus-8 core (00_scope.md R4, R6). -/

namespace Sys2Proof

/-- A data value, an operand byte or a memory cell: 8 bits, unsigned (R4 XLEN, R6). -/
abbrev Byte := BitVec 8

/-- An address or a program-counter value: 16 bits, wrapping modulo 65536 (R4 PCW, R12, R31). -/
abbrev Addr := BitVec 16

/-- The cycle counter: 64 bits, unsigned (R4 CYCW, R14). -/
abbrev Count := BitVec 64

end Sys2Proof
end

