-- ==== Sys2Proof/Machine/Alu.lean ====
section
/-! DEFINITION. The 8-bit results of the arithmetic and logic instructions (41_arithmetic.md R90,
42_logic.md R100). `a` is the old destination, `b` the resolved source. No flag exists (10_state.md
R18), so no flag is computed anywhere. -/

namespace Sys2Proof.Machine

/-- `(a + b) mod 256` (R91). -/
def aluAdd (a b : Byte) : Byte := BitVec.ofNat 8 (a.toNat + b.toNat)

/-- `(a - b) mod 256`, the non-negative remainder (R92). -/
def aluSub (a b : Byte) : Byte := BitVec.ofInt 8 ((a.toNat : Int) - (b.toNat : Int))

/-- The low byte of the 16-bit product (R93): `p[7:0]`. -/
def aluMul (a b : Byte) : Byte := (a.setWidth 16 * b.setWidth 16).extractLsb' 0 8

/-- The floor of the quotient (R94), used only for `b` from 1 to 255. That "integer division" is the floor
is PRESUMED by the spec (G3, log entry 8). -/
def aluDiv (a b : Byte) : Byte := BitVec.ofNat 8 (a.toNat / b.toNat)

/-- Bitwise AND (R101). -/
def aluAnd (a b : Byte) : Byte := a &&& b

/-- Bitwise OR (R102). -/
def aluOr (a b : Byte) : Byte := a ||| b

/-- Bitwise exclusive OR (R103). -/
def aluXor (a b : Byte) : Byte := a ^^^ b

/-- The complement within 8 bits (R104). -/
def aluNot (a : Byte) : Byte := ~~~a

/-- The complement of AND (R105). -/
def aluNand (a b : Byte) : Byte := ~~~(a &&& b)

/-- The complement of OR (R106). -/
def aluNor (a b : Byte) : Byte := ~~~(a ||| b)

end Sys2Proof.Machine
end

