-- ==== Sys2Proof/Config.lean ====
section
/-! DEFINITION. What is fixed for one machine and left open by the spec (00_scope.md R5).
Both constants are opaque: nothing can be proved of their value, so a claim holds for every value.
LOAD_START, the third parameter of R5, is an argument of the loader (Machine/Loader.lean). -/

namespace Sys2Proof

/-- The two values of the parameter DIV_ZERO_WITH_INVALID_DEST (R5, D5). -/
inductive DivZeroChoice where
  | fault
  | warn
deriving DecidableEq, Repr, Inhabited

/-- MEM_INIT (R5, R151, D3): the byte a cell holds when the core leaves reset, where the loader wrote
nothing. DESIGN CHOICE of form (log entry 1): a free value, never a number; safe. -/
opaque Config.memInit : Addr → Byte

/-- DIV_ZERO_WITH_INVALID_DEST (R5, R94, D5): what `div` does when the destination byte is 3 or more
and the source resolves to 0. DESIGN CHOICE of form (log entry 3): left open, both values allowed; safe. -/
opaque Config.divZeroWithInvalidDest : DivZeroChoice

end Sys2Proof
end

