-- ==== Sys2Proof/Syntax.lean ====
section
/-! DEFINITION. The instruction set as data: one constructor of `Instr` per row of the opcode table
(30_encoding.md R60), with the operand bytes turned into registers, immediates and invalid
destinations (R53, R54). DESIGN CHOICE of form: log entry 16. -/

namespace Sys2Proof

/-- The three general registers (R10). -/
inductive Reg where
  | A
  | B
  | C
deriving DecidableEq, Repr

/-- A source operand byte, read by the rule R53. -/
inductive Src where
  /-- byte 0, 1 or 2 -/
  | reg (r : Reg)
  /-- byte 3 to 255, its own value -/
  | imm (v : Byte)
deriving DecidableEq, Repr

/-- A destination operand byte, read by the rule R54. -/
inductive Dest where
  /-- byte 0, 1 or 2 -/
  | reg (r : Reg)
  /-- byte 3 to 255: names no register -/
  | invalid (d : Byte)
deriving DecidableEq, Repr

/-- The mnemonics of the opcode table, in the table's order (R60). -/
inductive Mnemonic where
  | mov
  | div
  | mul
  | add
  | sub
  | and
  | or
  | xor
  | not
  | nand
  | nor
  | print
  | halt
deriving DecidableEq, Repr

/-- The three formats (R50, R51). -/
inductive Format where
  /-- opcode alone -/
  | Z
  /-- opcode and one operand byte -/
  | U
  /-- opcode, destination byte, source byte -/
  | B
deriving DecidableEq, Repr

/-- One instruction: a constructor per row of the opcode table, in its order (R60). -/
inductive Instr where
  | mov (dest : Dest) (src : Src)
  | div (dest : Dest) (src : Src)
  | mul (dest : Dest) (src : Src)
  | add (dest : Dest) (src : Src)
  | sub (dest : Dest) (src : Src)
  | and (dest : Dest) (src : Src)
  | or (dest : Dest) (src : Src)
  | xor (dest : Dest) (src : Src)
  | not (dest : Dest)
  | nand (dest : Dest) (src : Src)
  | nor (dest : Dest) (src : Src)
  | print (src : Src)
  | halt
deriving DecidableEq, Repr

end Sys2Proof
end

