-- ==== Sys2Proof/WellFormed.lean ====
section
/-! DEFINITION. Which instruction terms have an encoding: an immediate, and an invalid destination,
is a byte of 3 to 255, because 0, 1 and 2 name registers (30_encoding.md R53, R54). -/

namespace Sys2Proof

/-- R53: the values 0, 1 and 2 cannot stand as immediates. -/
def Src.wf : Src → Bool
  | .reg _ => true
  | .imm v => decide (3 ≤ v.toNat)

/-- R54: the bytes 0, 1 and 2 always name a register. -/
def Dest.wf : Dest → Bool
  | .reg _ => true
  | .invalid d => decide (3 ≤ d.toNat)

/-- Every operand is one that some operand byte stands for. -/
def Instr.wf : Instr → Bool
  | .mov d s => d.wf && s.wf
  | .div d s => d.wf && s.wf
  | .mul d s => d.wf && s.wf
  | .add d s => d.wf && s.wf
  | .sub d s => d.wf && s.wf
  | .and d s => d.wf && s.wf
  | .or d s => d.wf && s.wf
  | .xor d s => d.wf && s.wf
  | .not d => d.wf
  | .nand d s => d.wf && s.wf
  | .nor d s => d.wf && s.wf
  | .print s => s.wf
  | .halt => true

end Sys2Proof
end

