-- ==== Sys2Proof/Decode.lean ====
section
/-! DEFINITION. The opcode table (30_encoding.md R60), operand decoding (R53, R54), the decoder (R52,
R56, R62) and, after it, the encoder (R51). -/

namespace Sys2Proof

/-- The column Opcode of R60. Nine of the thirteen numbers rest on the source's table alone
(91_not_in_source.md N2): UNVERIFIED, unsafe, log entry 22. -/
def Mnemonic.opcode : Mnemonic → Byte
  | .mov => 0x01#8
  | .div => 0x08#8
  | .mul => 0x09#8
  | .add => 0x10#8
  | .sub => 0x11#8
  | .and => 0x12#8
  | .or => 0x13#8
  | .xor => 0x14#8
  | .not => 0x15#8
  | .nand => 0x16#8
  | .nor => 0x17#8
  | .print => 0x40#8
  | .halt => 0xFF#8

/-- The column Format of R60. -/
def Mnemonic.format : Mnemonic → Format
  | .halt => .Z
  | .not => .U
  | .print => .U
  | .mov => .B
  | .div => .B
  | .mul => .B
  | .add => .B
  | .sub => .B
  | .and => .B
  | .or => .B
  | .xor => .B
  | .nand => .B
  | .nor => .B

/-- The number of operand bytes of a format (R50). -/
def Format.arity : Format → Nat
  | .Z => 0
  | .U => 1
  | .B => 2

/-- The column Arity of R60. -/
def Mnemonic.arity (m : Mnemonic) : Nat := m.format.arity

/-- An instruction's length in bytes: 1 + arity (R52). -/
def Mnemonic.length (m : Mnemonic) : Nat := 1 + m.arity

/-- The column Cycle cost of R60, the table of 70_reset_and_hazards.md R165. -/
def Mnemonic.cost : Mnemonic → Nat
  | .mov => 3
  | .add => 3
  | .sub => 3
  | .mul => 5
  | .div => 10
  | .and => 1
  | .or => 1
  | .xor => 1
  | .not => 1
  | .nand => 2
  | .nor => 2
  | .print => 2
  | .halt => 1

/-- The rows of the opcode table (R60), in its order. -/
def Mnemonic.table : List Mnemonic :=
  [.mov, .div, .mul, .add, .sub, .and, .or, .xor, .not, .nand, .nor, .print, .halt]

/-- The row an opcode byte selects; `none` for the 243 illegal bytes (R60, R62). -/
def Mnemonic.ofOpcode (op : Byte) : Option Mnemonic :=
  Mnemonic.table.find? fun m => m.opcode == op

/-- The register a code names (R10). -/
def Reg.ofCode (b : Byte) : Option Reg :=
  if b = 0#8 then some .A
  else if b = 1#8 then some .B
  else if b = 2#8 then some .C
  else none

/-- Source operand decoding (R53): 0, 1, 2 are registers, every other byte is itself. -/
def Src.ofByte (b : Byte) : Src :=
  match Reg.ofCode b with
  | some r => .reg r
  | none => .imm b

/-- Destination decoding (R54): 0, 1, 2 are registers, every other byte names none. -/
def Dest.ofByte (b : Byte) : Dest :=
  match Reg.ofCode b with
  | some r => .reg r
  | none => .invalid b

/-- The instruction of a row with its operand bytes (R51): `o1` at pc0 + 1, `o2` at pc0 + 2. A format
that has no such byte ignores it. -/
def Mnemonic.instr (m : Mnemonic) (o1 o2 : Byte) : Instr :=
  match m with
  | .mov => .mov (Dest.ofByte o1) (Src.ofByte o2)
  | .div => .div (Dest.ofByte o1) (Src.ofByte o2)
  | .mul => .mul (Dest.ofByte o1) (Src.ofByte o2)
  | .add => .add (Dest.ofByte o1) (Src.ofByte o2)
  | .sub => .sub (Dest.ofByte o1) (Src.ofByte o2)
  | .and => .and (Dest.ofByte o1) (Src.ofByte o2)
  | .or => .or (Dest.ofByte o1) (Src.ofByte o2)
  | .xor => .xor (Dest.ofByte o1) (Src.ofByte o2)
  | .not => .not (Dest.ofByte o1)
  | .nand => .nand (Dest.ofByte o1) (Src.ofByte o2)
  | .nor => .nor (Dest.ofByte o1) (Src.ofByte o2)
  | .print => .print (Src.ofByte o1)
  | .halt => .halt

/-- The row an instruction belongs to. -/
def Instr.mnemonic : Instr → Mnemonic
  | .mov _ _ => .mov
  | .div _ _ => .div
  | .mul _ _ => .mul
  | .add _ _ => .add
  | .sub _ _ => .sub
  | .and _ _ => .and
  | .or _ _ => .or
  | .xor _ _ => .xor
  | .not _ => .not
  | .nand _ _ => .nand
  | .nor _ _ => .nor
  | .print _ => .print
  | .halt => .halt

/-- The decoder over any source of bytes, `read k` being the byte k places after the opcode byte.
`none` is the illegal opcode (R62). The length is known only from the opcode byte, and only the bytes
the format has are looked at (R52, R56). -/
def decodeFrom (read : Nat → Byte) : Option Instr :=
  match Mnemonic.ofOpcode (read 0) with
  | none => none
  | some m => some (m.instr (read 1) (read 2))

/-- Why a list of bytes is no instruction. -/
inductive DecodeError where
  /-- there is no opcode byte -/
  | noBytes
  /-- the opcode byte is one of the 243 of R62 -/
  | unknownOpcode (op : Byte)
  /-- the list ends before the operand bytes the opcode needs; memory has no end (R31), so a fetch
  never meets this -/
  | truncated (op : Byte)
deriving DecidableEq, Repr

/-- What the decoder answers on a list of bytes. -/
inductive Decoded where
  | ok (i : Instr) (rest : List Byte)
  | reject (e : DecodeError)
deriving DecidableEq, Repr

/-- The decoder on a list of bytes, total, rejecting by name (R50, R52, R62). -/
def decode : List Byte → Decoded
  | [] => .reject .noBytes
  | op :: rest =>
    match decodeFrom (fun k => (op :: rest).getD k 0#8) with
    | none => .reject (.unknownOpcode op)
    | some i =>
      if rest.length < i.mnemonic.arity then .reject (.truncated op)
      else .ok i (rest.drop i.mnemonic.arity)

/-- The byte at place k of a table word: the first byte is bits 7..0, the next bits 15..8, and so on. -/
def tableByte (w k : Nat) : Byte := BitVec.ofNat 8 (w / 256 ^ k)

/-- The three bytes a table word of `nbits` bits stands for, in address order; the bits above `nbits`
are 0. -/
def tableBytes (nbits w : Nat) : List Byte :=
  let v := w % 2 ^ nbits
  [tableByte v 0, tableByte v 1, tableByte v 2]

/-- The instruction the decoder reads from an instruction whose bits are `w`, numbered as
spec/opcode_table.json numbers them. -/
def decodeTableWord (nbits w : Nat) : Option Instr :=
  match decode (tableBytes nbits w) with
  | .ok i _ => some i
  | .reject _ => none

/-! The encoder, written from the format tables of R51 and the register codes of R10. -/

/-- The register codes (R10). -/
def Reg.code : Reg → Byte
  | .A => 0#8
  | .B => 1#8
  | .C => 2#8

/-- The byte a source operand is encoded as (R53). -/
def Src.toByte : Src → Byte
  | .reg r => r.code
  | .imm v => v

/-- The byte a destination operand is encoded as (R54). -/
def Dest.toByte : Dest → Byte
  | .reg r => r.code
  | .invalid d => d

/-- The bytes of an instruction at pc0, pc0 + 1, pc0 + 2 (R51; the opcode bytes of R60). -/
def encode : Instr → List Byte
  | .mov d s => [0x01#8, d.toByte, s.toByte]
  | .div d s => [0x08#8, d.toByte, s.toByte]
  | .mul d s => [0x09#8, d.toByte, s.toByte]
  | .add d s => [0x10#8, d.toByte, s.toByte]
  | .sub d s => [0x11#8, d.toByte, s.toByte]
  | .and d s => [0x12#8, d.toByte, s.toByte]
  | .or d s => [0x13#8, d.toByte, s.toByte]
  | .xor d s => [0x14#8, d.toByte, s.toByte]
  | .not d => [0x15#8, d.toByte]
  | .nand d s => [0x16#8, d.toByte, s.toByte]
  | .nor d s => [0x17#8, d.toByte, s.toByte]
  | .print s => [0x40#8, s.toByte]
  | .halt => [0xFF#8]

end Sys2Proof
end

