-- ==== Sys2Proof/Machine/State.lean ====
section
/-! DEFINITION. The state of the machine (10_state.md), the reasons a step can stop, and reset
(70_reset_and_hazards.md R150). The state is exactly what 10_state.md lists, and nothing else. -/

namespace Sys2Proof.Machine

/-- The cause of a fatal fault (10_state.md R15, 60_exceptions.md R120). Named, not numbered (D12). -/
inductive FaultCause where
  /-- the opcode byte and its address (R121) -/
  | unknownOpcode (op : Byte) (pc0 : Addr)
  /-- the address of the `div` opcode byte (R122) -/
  | divideByZero (pc0 : Addr)
deriving DecidableEq, Repr

/-- The run state (R15), with the fault cause where it is valid: exactly when the run is Faulted. -/
inductive RunState where
  | running
  | haltedOk
  | faulted (cause : FaultCause)
deriving DecidableEq, Repr

/-- The events of the diagnostic log (R17). The fields of the warning and of the division report are
the spec's own choice (D6, log entry 6); message text is not modelled (U5, log entry 10). -/
inductive DiagEvent where
  /-- `Warn(InvalidDestination, pc0, b)` (R123) -/
  | warnInvalidDestination (pc0 : Addr) (b : Byte)
  /-- `FaultReport(cause)` (R121, R122) -/
  | faultReport (cause : FaultCause)
  /-- `HaltReport(pc, cycles)` (R111) -/
  | haltReport (pc : Addr) (cycles : Count)
deriving DecidableEq, Repr

/-- The cells of the memory `M` (R25, R30) that have been written since power-on, by the loader:
(address, byte) pairs, addresses strictly rising, each below 65536. An address not listed holds its
MEM_INIT byte (`Memory.unlisted`). -/
abbrev Memory := List Host.Cell

/-- The state of the machine: three general registers, the program counter, the cycle counter, the run
state with its fault cause, the memory and the two logs (10_state.md R10, R12, R14, R15, R16, R17, R25). -/
structure State where
  /-- general register A, code 0 (R10) -/
  A : Byte
  /-- general register B, code 1 (R10) -/
  B : Byte
  /-- general register C, code 2 (R10) -/
  C : Byte
  /-- the program counter: between steps the address of the next opcode byte (R12) -/
  pc : Addr
  /-- the cycle counter (R14) -/
  cycles : Count
  /-- the run state, with the fault cause when Faulted (R15) -/
  run : RunState
  /-- the output log, oldest first (R16) -/
  out : List Byte
  /-- the diagnostic log, oldest first (R17) -/
  diag : List DiagEvent
  /-- the memory cells written since power-on (R25, R151) -/
  mem : Memory
deriving DecidableEq, Repr

/-- Why `step` answers no next state although nothing went wrong in the model: the run has ended, and
60_exceptions.md R126 defines no step there ("the end of a run is exactly `run` ≠ Running"). The
machine's two fatal faults are NOT here: their entry is described by the spec and taken as a next
state (`State.raise`). -/
inductive Fault where
  /-- Raised by `step` alone, when `run` is HaltedOk: the run ended with exit status 0 (R24, R126).
  Safe: no step exists there. -/
  | endedOk
  /-- Raised by `step` alone, when `run` is Faulted with this cause: the run ended with exit status 1
  (R24, R126). Safe: no step exists there. -/
  | endedFaulted (cause : FaultCause)
deriving DecidableEq, Repr

/-- Why the model gives an instruction no meaning. -/
inductive Refusal where
  /-- Raised by an arm of `exec` whose instruction has no meaning yet; no arm raises it now. Safe. -/
  | notModelled (mnemonic : String)
deriving DecidableEq, Repr

/-- The machine right after reset (10_state.md R27, 70_reset_and_hazards.md R150): registers, pc and
cycles 0, Running, both logs empty, no memory cell written, so every cell holds its MEM_INIT byte. -/
def State.reset : State where
  A := 0#8
  B := 0#8
  C := 0#8
  pc := 0#16
  cycles := 0#64
  run := .running
  out := []
  diag := []
  mem := []

end Sys2Proof.Machine
end

