-- ==== Sys2Proof/Machine/Ops.lean ====
section
/-! DEFINITION. The named operations over memory, registers, logs and the run state (00_scope.md R7),
among them taking a fatal fault (60_exceptions.md R125) and the way out of a terminal state, reset. -/

namespace Sys2Proof.Machine

/-! Memory (20_memory.md). -/

/-- The byte listed for an address, if one is. -/
def Memory.lookup : Memory → Nat → Option Byte
  | [], _ => none
  | (k, v) :: m, a => if a = k then some v else Memory.lookup m a

/-- What an unlisted address reads as: its MEM_INIT byte (R5, R151), a free value. -/
def Memory.unlisted (a : Addr) : Byte := Config.memInit a

/-- `MemRead(addr, 1)` on the cells (R32): total, no side effect. -/
def Memory.read (m : Memory) (a : Addr) : Byte :=
  match Memory.lookup m a.toNat with
  | some v => v
  | none => Memory.unlisted a

/-- `MemWrite(addr, 1, v)` on the cells (R33), keeping the addresses strictly rising. -/
def Memory.write : Memory → Nat → Byte → Memory
  | [], a, v => [(a, v)]
  | (k, w) :: m, a, v =>
    if a < k then (a, v) :: (k, w) :: m
    else if a = k then (a, v) :: m
    else (k, w) :: Memory.write m a v

/-- The addresses rise strictly from `low` and stay below 65536. -/
def Memory.risesFrom : Nat → Memory → Bool
  | _, [] => true
  | low, (k, _) :: m => decide (low ≤ k) && decide (k < 65536) && Memory.risesFrom (k + 1) m

/-- The canonical form: addresses strictly rising, each below 65536 (log entry 2). -/
def Memory.wf (m : Memory) : Bool := Memory.risesFrom 0 m

/-- `MemRead(addr, 1)` (R32). -/
def State.memRead (s : State) (a : Addr) : Byte := Memory.read s.mem a

/-- `MemWrite(addr, 1, v)` (R33). Only the loader calls it; no instruction does (R34). -/
def State.memWrite (s : State) (a : Addr) (v : Byte) : State :=
  { s with mem := Memory.write s.mem a.toNat v }

/-- Consecutive `MemWrite`s of `bytes` from address `a` on, modulo 65536 (R31, R33, R153). -/
def State.storeBytes (s : State) (a : Addr) : List Byte → State
  | [] => s
  | v :: vs => State.storeBytes (s.memWrite a v) (a + 1#16) vs

/-! Registers (10_state.md R10, R11). -/

/-- `x[i]` (R7). -/
def State.reg (s : State) (r : Reg) : Byte :=
  match r with
  | .A => s.A
  | .B => s.B
  | .C => s.C

/-- `x[i] <- v` (R7). -/
def State.setReg (s : State) (r : Reg) (v : Byte) : State :=
  match r with
  | .A => { s with A := v }
  | .B => { s with B := v }
  | .C => { s with C := v }

/-! The end of an instruction, and events. -/

/-- An instruction completes (30_encoding.md R56): pc advances past its bytes modulo 65536 (R13), and
cycles grow by its cost modulo 2^64 (R14; the wrap is PRESUMED, D14, log entry 7). -/
def State.complete (s : State) (m : Mnemonic) : State :=
  { s with
    pc := s.pc + BitVec.ofNat 16 m.length
    cycles := s.cycles + BitVec.ofNat 64 m.cost }

/-- `emit Print(v)` (R16, R110). -/
def State.emitPrint (s : State) (v : Byte) : State :=
  { s with out := s.out ++ [v] }

/-- `emit Warn(InvalidDestination, pc0, b)` (R123): one event; no register written, run unchanged. -/
def State.warnInvalidDestination (s : State) (b : Byte) : State :=
  { s with diag := s.diag ++ [.warnInvalidDestination s.pc b] }

/-- Taking a fatal fault (R121, R122, R125): the report is appended to diag and run becomes Faulted with
the cause. No handler, no vector, no saved register: pc stays at the opcode byte's address (D1, log
entry 4), cycles are not changed (D2, log entry 5), nothing else changes. There is no return (R127). -/
def State.raise (s : State) (cause : FaultCause) : State :=
  { s with
    diag := s.diag ++ [.faultReport cause]
    run := .faulted cause }

/-- `halt_ok()` (R111): the cost is added before the report is made, pc stays at the opcode byte. -/
def State.haltOk (s : State) : State :=
  let total := s.cycles + BitVec.ofNat 64 Mnemonic.halt.cost
  { s with
    cycles := total
    diag := s.diag ++ [.haltReport s.pc total]
    run := .haltedOk }

/-! The environment's side (10_state.md, section 9). -/

/-- The environment applies reset (R20, R150), in any state: every field but the memory gets its reset
value, and memory is not written (D8, log entry 12). -/
def State.applyReset (s : State) : State := { State.reset with mem := s.mem }

/-- The exit status output (R24): none while Running. -/
def State.exitStatus (s : State) : Option Nat :=
  match s.run with
  | .running => none
  | .haltedOk => some 0
  | .faulted _ => some 1

end Sys2Proof.Machine
end

