-- ==== Sys2Proof/Machine/Operands.lean ====
section
/-! DEFINITION. Operand forms: source resolution (30_encoding.md R53) and the update of a destination
(R54, 60_exceptions.md R123). -/

namespace Sys2Proof.Machine

/-- `resolve(src)` (R53): the register's value from before the instruction (00_scope.md R8), or the byte
itself, unsigned, not extended. -/
def State.resolve (s : State) (src : Src) : Byte :=
  match src with
  | .reg r => s.reg r
  | .imm v => v

/-- `if isreg(dest): x[dest] <- f(x[dest]) else: emit Warn(InvalidDestination, pc0, dest)`, the shape of
every instruction with a destination (R54, R55, R123). -/
def State.updateDest (s : State) (dest : Dest) (f : Byte → Byte) : State :=
  match dest with
  | .reg r => s.setReg r (f (s.reg r))
  | .invalid b => s.warnInvalidDestination b

end Sys2Proof.Machine
end

