-- ==== Sys2Proof/Machine/Arithmetic.lean ====
section
/-! DEFINITION. The arithmetic instructions (41_arithmetic.md). -/

namespace Sys2Proof.Machine

/-- `add dest, src` (R91). -/
def execAdd (dest : Dest) (src : Src) (s : State) : Host.Outcome State Fault Refusal :=
  .next ((s.updateDest dest fun a => aluAdd a (s.resolve src)).complete .add)

/-- `sub dest, src` (R92). -/
def execSub (dest : Dest) (src : Src) (s : State) : Host.Outcome State Fault Refusal :=
  .next ((s.updateDest dest fun a => aluSub a (s.resolve src)).complete .sub)

/-- `mul dest, src` (R93). -/
def execMul (dest : Dest) (src : Src) (s : State) : Host.Outcome State Fault Refusal :=
  .next ((s.updateDest dest fun a => aluMul a (s.resolve src)).complete .mul)

/-- What `div` does when the divisor is 0 (R94, R122, R124): the fatal fault, or, for an invalid
destination where DIV_ZERO_WITH_INVALID_DEST is `warn`, the warning (D5, log entry 3). -/
def divByZero (dest : Dest) (s : State) : State :=
  match dest with
  | .reg _ => s.raise (.divideByZero s.pc)
  | .invalid b =>
    match Config.divZeroWithInvalidDest with
    | .fault => s.raise (.divideByZero s.pc)
    | .warn => (s.warnInvalidDestination b).complete .div

/-- `div dest, src` (R94): the divisor is tested before the destination (R124). -/
def execDiv (dest : Dest) (src : Src) (s : State) : Host.Outcome State Fault Refusal :=
  if s.resolve src = 0#8 then .next (divByZero dest s)
  else .next ((s.updateDest dest fun a => aluDiv a (s.resolve src)).complete .div)

end Sys2Proof.Machine
end

