-- ==== Sys2Proof/Machine/DataMove.lean ====
section
/-! DEFINITION. The data movement instruction (40_data_move.md). -/

namespace Sys2Proof.Machine

/-- `mov dest, src` (R80). -/
def execMov (dest : Dest) (src : Src) (s : State) : Host.Outcome State Fault Refusal :=
  .next ((s.updateDest dest fun _ => s.resolve src).complete .mov)

end Sys2Proof.Machine
end

