-- ==== Sys2Proof/Machine/Logic.lean ====
section
/-! DEFINITION. The logic instructions (42_logic.md). -/

namespace Sys2Proof.Machine

/-- `and dest, src` (R101). -/
def execAnd (dest : Dest) (src : Src) (s : State) : Host.Outcome State Fault Refusal :=
  .next ((s.updateDest dest fun a => aluAnd a (s.resolve src)).complete .and)

/-- `or dest, src` (R102). -/
def execOr (dest : Dest) (src : Src) (s : State) : Host.Outcome State Fault Refusal :=
  .next ((s.updateDest dest fun a => aluOr a (s.resolve src)).complete .or)

/-- `xor dest, src` (R103). -/
def execXor (dest : Dest) (src : Src) (s : State) : Host.Outcome State Fault Refusal :=
  .next ((s.updateDest dest fun a => aluXor a (s.resolve src)).complete .xor)

/-- `not dest` (R104). -/
def execNot (dest : Dest) (s : State) : Host.Outcome State Fault Refusal :=
  .next ((s.updateDest dest aluNot).complete .not)

/-- `nand dest, src` (R105). -/
def execNand (dest : Dest) (src : Src) (s : State) : Host.Outcome State Fault Refusal :=
  .next ((s.updateDest dest fun a => aluNand a (s.resolve src)).complete .nand)

/-- `nor dest, src` (R106). -/
def execNor (dest : Dest) (src : Src) (s : State) : Host.Outcome State Fault Refusal :=
  .next ((s.updateDest dest fun a => aluNor a (s.resolve src)).complete .nor)

end Sys2Proof.Machine
end

