-- ==== Sys2Proof/Machine/System.lean ====
section
/-! DEFINITION. The output and halt instructions (43_output_and_halt.md). -/

namespace Sys2Proof.Machine

/-- `print src` (R110). -/
def execPrint (src : Src) (s : State) : Host.Outcome State Fault Refusal :=
  .next ((s.emitPrint (s.resolve src)).complete .print)

/-- `halt` (R111): the step neither advances pc nor adds the cost again after `halt_ok()`. -/
def execHalt (s : State) : Host.Outcome State Fault Refusal :=
  .next s.haltOk

end Sys2Proof.Machine
end

