-- ==== Sys2Proof/Machine/Dispatch.lean ====
section
/-! DEFINITION. One arm per instruction (30_encoding.md R60). An instruction's meaning is its rule of
files 40 to 43 together with the completion of R56 (pc and cycles). `s.pc` is pc0. -/

namespace Sys2Proof.Machine

def exec (i : Instr) (s : State) : Host.Outcome State Fault Refusal :=
  match i with
  | .mov d src => Sys2Proof.Machine.execMov d src s
  | .div d src => Sys2Proof.Machine.execDiv d src s
  | .mul d src => Sys2Proof.Machine.execMul d src s
  | .add d src => Sys2Proof.Machine.execAdd d src s
  | .sub d src => Sys2Proof.Machine.execSub d src s
  | .and d src => Sys2Proof.Machine.execAnd d src s
  | .or d src => Sys2Proof.Machine.execOr d src s
  | .xor d src => Sys2Proof.Machine.execXor d src s
  | .not d => Sys2Proof.Machine.execNot d s
  | .nand d src => Sys2Proof.Machine.execNand d src s
  | .nor d src => Sys2Proof.Machine.execNor d src s
  | .print src => Sys2Proof.Machine.execPrint src s
  | .halt => Sys2Proof.Machine.execHalt s

end Sys2Proof.Machine
end

