-- ==== Sys2Proof/Machine/Fetch.lean ====
section
/-! DEFINITION. Fetching an instruction's bytes from the live store (30_encoding.md R56, 20_memory.md
R31, R42), and the read port of 10_state.md R21. -/

namespace Sys2Proof.Machine

/-- The address `k` bytes after the opcode byte, modulo 65536 (R31). -/
def State.fetchAddr (s : State) (k : Nat) : Addr := s.pc + BitVec.ofNat 16 k

/-- The byte `k` places after the opcode byte, read from memory at this moment (R42). -/
def State.fetchByte (s : State) (k : Nat) : Byte := s.memRead (s.fetchAddr k)

/-- What a fetch finds. -/
inductive Fetched where
  /-- an opcode byte of R62 -/
  | unknown (op : Byte)
  | instr (i : Instr)
deriving DecidableEq, Repr

/-- The fetch and decode part of a step (R56). -/
def State.fetch (s : State) : Fetched :=
  match decodeFrom s.fetchByte with
  | none => .unknown (s.fetchByte 0)
  | some i => .instr i

/-- How many bytes the step reads (R21): as many as the instruction has, one for an unknown opcode. -/
def State.fetchLength (s : State) : Nat :=
  match Mnemonic.ofOpcode (s.fetchByte 0) with
  | none => 1
  | some m => m.length

/-- The addresses the core presents in one step, in order (R21). -/
def State.fetchAddrs (s : State) : List Addr :=
  (List.range s.fetchLength).map s.fetchAddr

end Sys2Proof.Machine
end

