-- ==== Sys2Proof/Machine/Step.lean ====
section
/-! DEFINITION. One step of the machine (30_encoding.md R56). -/

namespace Sys2Proof.Machine

/-- One pass of the fetch-decode-execute loop (R56). It is defined only while `run` is Running; in a
terminal state the run has ended and there is no step (60_exceptions.md R126, log entry 9). -/
def step (s : State) : Host.Outcome State Fault Refusal :=
  match s.run with
  | .haltedOk => .fault .endedOk
  | .faulted cause => .fault (.endedFaulted cause)
  | .running =>
    match s.fetch with
    | .unknown op => .next (s.raise (.unknownOpcode op s.pc))
    | .instr i => exec i s

/-- `s` with an instruction's bytes where `step` fetches next, and Running, so that the next step runs it
(log entry 13). -/
def State.withFetchWord (s : State) (nbits w : Nat) : State :=
  { s.storeBytes s.pc (tableBytes nbits w) with run := .running }

end Sys2Proof.Machine
end

