-- ==== Sys2Proof/Machine/Observe.lean ====
section
/-! DEFINITION. The text form of the output log (10_state.md R16). Presentation only: the modelled
observable is the 8-bit value in `out`. Digits without leading zeros and the byte 0x0A are PRESUMED by
the spec (G1, G4, D7; log entry 11). -/

namespace Sys2Proof.Machine

/-- The ASCII code of a character. -/
def ascii (c : Char) : Byte := BitVec.ofNat 8 c.toNat

/-- The ASCII code of a decimal digit, for `d` below 10. -/
def digitByte (d : Nat) : Byte := BitVec.ofNat 8 (0x30 + d)

/-- The decimal numeral of a byte, most significant digit first, no sign, no leading zeros (R16). -/
def decimal (v : Byte) : List Byte :=
  let n := v.toNat
  if n < 10 then [digitByte n]
  else if n < 100 then [digitByte (n / 10), digitByte (n % 10)]
  else [digitByte (n / 100), digitByte (n / 10 % 10), digitByte (n % 10)]

/-- The line terminator (R16, D7). -/
def newline : Byte := 0x0A#8

/-- The line an entry of the output log stands for (R16). -/
def printLine (v : Byte) : List Byte := decimal v ++ [newline]

/-- The text of the whole output stream (R16). -/
def State.outText (s : State) : List Byte := s.out.flatMap printLine

end Sys2Proof.Machine
end

