-- ==== Sys2Proof/Machine/Assembler.lean ====
section
/-! DEFINITION. The text pass of the loader: the assembler grammar of 30_encoding.md R70 to R75. It is
surrounding software (00_scope.md R3); its contract is part of the spec. Where R70 to R73 do not settle a
text (91_not_in_source.md N8, U13), the two readings of the open point are an acceptance and a failure of
the whole text: a text that fails under both is `failed` (R74, R154), any other is `notCovered`, neither
accepted nor failed (log entry 19). -/

namespace Sys2Proof.Machine

/-- A token of the source text, or a comma (R70). -/
inductive Lexeme where
  | word (w : List Byte)
  | comma
deriving DecidableEq, Repr

/-- Where in the text the reader stands (R70). -/
inductive LexMode where
  /-- outside comments -/
  | text
  /-- just after a slash that may open a comment -/
  | slash
  /-- in a line comment -/
  | line
  /-- in a block comment -/
  | block
  /-- in a block comment, just after a star -/
  | star
deriving DecidableEq, Repr

/-- The whitespace bytes: space and 0x09 to 0x0D. PRESUMED, the C locale's set (log entry 17). -/
def isSpace (b : Byte) : Bool := b == 0x20#8 || (decide (0x09 ≤ b.toNat) && decide (b.toNat ≤ 0x0D))

/-- Mnemonics and register letters are case-insensitive (R70). -/
def lower (b : Byte) : Byte :=
  if 0x41 ≤ b.toNat ∧ b.toNat ≤ 0x5A then BitVec.ofNat 8 (b.toNat + 0x20) else b

/-- The token gathered so far (its bytes newest first), if any, before what follows. -/
def endWord (acc : List Byte) (rest : List Lexeme) : List Lexeme :=
  if acc.isEmpty then rest else .word acc.reverse :: rest

/-- The tokens and commas of a text (R70): split at whitespace; a comma also ends the token before it; a
comment is skipped and also ends the token before it (DESIGN CHOICE, log entry 18); an unterminated
block comment runs to the end of input. `acc` is the token being read, newest byte first. -/
def lex : LexMode → List Byte → List Byte → List Lexeme
  | .text, acc, [] => endWord acc []
  | .slash, acc, [] => endWord (ascii '/' :: acc) []
  | .line, _, [] => []
  | .block, _, [] => []
  | .star, _, [] => []
  | .text, acc, b :: bs =>
    if b = ascii '/' then lex .slash acc bs
    else if b = ascii ',' then endWord acc (.comma :: lex .text [] bs)
    else if isSpace b then endWord acc (lex .text [] bs)
    else lex .text (b :: acc) bs
  | .slash, acc, b :: bs =>
    if b = ascii '/' then endWord acc (lex .line [] bs)
    else if b = ascii '*' then endWord acc (lex .block [] bs)
    else if b = ascii ',' then endWord (ascii '/' :: acc) (.comma :: lex .text [] bs)
    else if isSpace b then endWord (ascii '/' :: acc) (lex .text [] bs)
    else lex .text (b :: ascii '/' :: acc) bs
  | .line, acc, b :: bs => if b = newline then lex .text [] bs else lex .line acc bs
  | .block, acc, b :: bs => if b = ascii '*' then lex .star acc bs else lex .block acc bs
  | .star, acc, b :: bs =>
    if b = ascii '/' then lex .text [] bs
    else if b = ascii '*' then lex .star acc bs
    else lex .block acc bs

/-- The name of a mnemonic in lower case (R73). -/
def mnemonicName : Mnemonic → List Byte
  | .mov => ['m', 'o', 'v'].map ascii
  | .div => ['d', 'i', 'v'].map ascii
  | .mul => ['m', 'u', 'l'].map ascii
  | .add => ['a', 'd', 'd'].map ascii
  | .sub => ['s', 'u', 'b'].map ascii
  | .and => ['a', 'n', 'd'].map ascii
  | .or => ['o', 'r'].map ascii
  | .xor => ['x', 'o', 'r'].map ascii
  | .not => ['n', 'o', 't'].map ascii
  | .nand => ['n', 'a', 'n', 'd'].map ascii
  | .nor => ['n', 'o', 'r'].map ascii
  | .print => ['p', 'r', 'i', 'n', 't'].map ascii
  | .halt => ['h', 'a', 'l', 't'].map ascii

/-- The row a token names, whatever the case of its letters (R60, R70). -/
def mnemonicOf (w : List Byte) : Option Mnemonic :=
  Mnemonic.table.find? fun m => mnemonicName m == w.map lower

/-- The value of a digit: 0 to 9, and a to f in either case. -/
def digitValue (b : Byte) : Option Nat :=
  let n := (lower b).toNat
  if 0x30 ≤ n ∧ n ≤ 0x39 then some (n - 0x30)
  else if 0x61 ≤ n ∧ n ≤ 0x66 then some (n - 0x61 + 10)
  else none

/-- The number the digits stand for in a base, on from `acc`; `none` where a byte is no digit of it. -/
def digitsValue (base : Nat) (acc : Nat) : List Byte → Option Nat
  | [] => some acc
  | b :: bs =>
    match digitValue b with
    | none => none
    | some d => if d < base then digitsValue base (acc * base + d) bs else none

/-- An integer literal with base inference: `0x` is 16, a leading `0` is 8, else 10 (R72). `none` for
anything that is not plainly one of these. -/
def literal : List Byte → Option Nat
  | [] => none
  | [b] => digitsValue 10 0 [b]
  | b :: c :: bs =>
    if b = ascii '0' then
      if c = ascii 'x' then
        if bs.isEmpty then none else digitsValue 16 0 bs
      else digitsValue 8 0 (c :: bs)
    else digitsValue 10 0 (b :: c :: bs)

/-- What an operand token emits. -/
inductive OperandToken where
  | byte (b : Byte)
  | failed
  /-- N8 lists it as not in the source -/
  | notCovered
deriving DecidableEq, Repr

/-- The register letter a token is, in either case (R72). -/
def registerLetter (w : List Byte) : Option Reg :=
  match w.map lower with
  | [b] =>
    if b = ascii 'a' then some .A
    else if b = ascii 'b' then some .B
    else if b = ascii 'c' then some .C
    else none
  | _ => none

/-- A token beginning like a number or a register letter, whose remainder N8 leaves open: a sign, a
digit, or one of a, b, c. -/
def opensLikeOperand : List Byte → Bool
  | [] => false
  | b :: _ =>
    (digitValue b).any (fun d => decide (d < 10)) || b == ascii '+' || b == ascii '-'
      || lower b == ascii 'a' || lower b == ascii 'b' || lower b == ascii 'c'

/-- The number the leading digits of a base denote, on from `acc`, whatever follows them. -/
def leadingValue (base : Nat) (acc : Nat) : List Byte → Nat
  | [] => acc
  | b :: bs =>
    match digitValue b with
    | none => acc
    | some d => if d < base then leadingValue base (acc * base + d) bs else acc

/-- The token without one leading sign. -/
def stripSign : List Byte → List Byte
  | [] => []
  | b :: bs => if b = ascii '+' ∨ b = ascii '-' then bs else b :: bs

/-- The magnitude an open token has if its sign and its trailing characters are accepted, with the base
inference of R72. Over 255 the token is out of range however N8 is read. -/
def openMagnitude (w : List Byte) : Nat :=
  match stripSign w with
  | b :: c :: bs =>
    if b = ascii '0' then
      if c = ascii 'x' then leadingValue 16 0 bs else leadingValue 8 0 (c :: bs)
    else leadingValue 10 0 (b :: c :: bs)
  | v => leadingValue 10 0 v

/-- The classification of an operand token, whatever its position (R71, R72). A token that N8 leaves
open, but that is out of range on every reading, is malformed or out of range (R74). -/
def operandOf (w : List Byte) : OperandToken :=
  match registerLetter w with
  | some r => .byte r.code
  | none =>
    match literal w with
    | some n => if n ≤ 255 then .byte (BitVec.ofNat 8 n) else .failed
    | none => if opensLikeOperand w && decide (openMagnitude w ≤ 255) then .notCovered else .failed

/-- The outcome of the text pass. -/
inductive AsmResult where
  /-- every token parsed; the emitted stream -/
  | image (bytes : List Byte)
  /-- an unknown mnemonic, a malformed or out-of-range operand, a truncated operand list (R74) -/
  | failed
  /-- whether the text parses depends on a point N8 leaves open -/
  | notCovered
deriving DecidableEq, Repr

/-- The stream with one more byte before it. -/
def AsmResult.emit (b : Byte) : AsmResult → AsmResult
  | .image bs => .image (b :: bs)
  | .failed => .failed
  | .notCovered => .notCovered

/-- What is known after an open point whose acceptance leads to this outcome: its rejection fails the
whole text, so a failure is settled ("failure anywhere in the scan", R154), and nothing else is. -/
def AsmResult.openPoint : AsmResult → AsmResult
  | .image _ => .notCovered
  | .failed => .failed
  | .notCovered => .notCovered

/-- What the parser expects next. -/
inductive ParseState where
  /-- a mnemonic, or the end -/
  | statement
  /-- an operand, with `more` further ones after it; a comma may stand before it where `commaOk` -/
  | operand (more : Nat) (commaOk : Bool)
deriving DecidableEq, Repr

/-- What follows once `n` operands are still to be read, the last thing read being an operand. -/
def ParseState.after : Nat → ParseState
  | 0 => .statement
  | n + 1 => .operand n true

/-- What follows a mnemonic of this arity. No comma may stand before the first operand (N8). -/
def ParseState.start : Nat → ParseState
  | 0 => .statement
  | n + 1 => .operand n false

/-- The statements of R71: a mnemonic and exactly `arity` operands, an optional comma between two. At a
point N8 leaves open, a comma where R70 lists none is skipped, an open operand token counts as an
operand, and the outcome is only what both readings agree on (`AsmResult.openPoint`). -/
def parse : ParseState → List Lexeme → AsmResult
  | .statement, [] => .image []
  | .statement, .comma :: rest => (parse .statement rest).openPoint
  | .statement, .word w :: rest =>
    match mnemonicOf w with
    | none => .failed
    | some m => (parse (ParseState.start m.arity) rest).emit m.opcode
  | .operand _ _, [] => .failed
  | .operand more commaOk, .comma :: rest =>
    if commaOk then parse (.operand more false) rest else (parse (.operand more false) rest).openPoint
  | .operand more _, .word w :: rest =>
    match operandOf w with
    | .byte b => (parse (ParseState.after more) rest).emit b
    | .failed => .failed
    | .notCovered => (parse (ParseState.after more) rest).openPoint

/-- The text pass over a whole file (R70 to R74). -/
def assemble (text : List Byte) : AsmResult := parse .statement (lex .text [] text)

/-! The text form of an instruction (R73), with registers as letters and values in decimal. -/

/-- The letter of a register. -/
def regLetter : Reg → Byte
  | .A => ascii 'A'
  | .B => ascii 'B'
  | .C => ascii 'C'

/-- A source operand as text (R72). -/
def srcText : Src → List Byte
  | .reg r => [regLetter r]
  | .imm v => decimal v

/-- A destination operand as text (R72); an invalid one is written as its number (C6). -/
def destText : Dest → List Byte
  | .reg r => [regLetter r]
  | .invalid d => decimal d

/-- A two-operand statement. -/
def textB (m : Mnemonic) (d : Dest) (s : Src) : List Byte :=
  mnemonicName m ++ [ascii ' '] ++ destText d ++ [ascii ','] ++ srcText s

/-- The text of an instruction (R73), without a line end. -/
def instrText : Instr → List Byte
  | .mov d s => textB .mov d s
  | .div d s => textB .div d s
  | .mul d s => textB .mul d s
  | .add d s => textB .add d s
  | .sub d s => textB .sub d s
  | .and d s => textB .and d s
  | .or d s => textB .or d s
  | .xor d s => textB .xor d s
  | .not d => mnemonicName .not ++ [ascii ' '] ++ destText d
  | .nand d s => textB .nand d s
  | .nor d s => textB .nor d s
  | .print s => mnemonicName .print ++ [ascii ' '] ++ srcText s
  | .halt => mnemonicName .halt

/-- The source text of a list of instructions, one a line (R71). -/
def programText (is : List Instr) : List Byte := is.flatMap fun i => instrText i ++ [newline]

end Sys2Proof.Machine
end

