-- ==== Sys2Proof/Machine/Loader.lean ====
section
/-! DEFINITION. The loader's contract (70_reset_and_hazards.md R152 to R155): what stands in memory
before the core's first step. It is surrounding software (00_scope.md R3). LOAD_START (R5, D4) is an
argument. -/

namespace Sys2Proof.Machine

/-- How a load ends. -/
inductive LoadResult where
  /-- the machine with the image in memory, the number of bytes written, and whether the recoverable
  fallback to a raw copy was reported (R153, R154) -/
  | loaded (s : State) (n : Nat) (fellBack : Bool)
  /-- the load fails and the core does not run; exit status 1 (R152, R155) -/
  | failed
  /-- whether the text parses is not in the source: it fails on some readings of N8, not on all (U13; log
  entry 19) -/
  | notCovered
deriving DecidableEq, Repr

/-- The bytes that fit between the start address and the top of memory (R154). -/
def capacity (start : Nat) : Nat := 65536 - start

/-- Write an image at `[start, start + n)` and report n (R153). -/
def loadImage (start : Nat) (image : List Byte) (fellBack : Bool) (s : State) : LoadResult :=
  .loaded (s.storeBytes (BitVec.ofNat 16 start) image) image.length fellBack

/-- The load of a file, `none` being one that cannot be opened (R153 to R155). The text pass decides: an
assembled stream over capacity fails the load; on any failure of the text pass, wherever in the scan, the
raw bytes are copied, clipped to capacity (90_conflicts.md C7). Capacity is judged after the whole text
has parsed (log entry 20). -/
def load (start : Nat) (file : Option (List Byte)) (s : State) : LoadResult :=
  match file with
  | none => .failed
  | some bytes =>
    if 65536 ≤ start then .failed
    else
      match assemble bytes with
      | .image img => if img.length ≤ capacity start then loadImage start img false s else .failed
      | .failed => loadImage start (bytes.take (capacity start)) true s
      | .notCovered => .notCovered

/-- Reset, then the loader's writes; the core's first step comes after (R152). -/
def boot (start : Nat) (file : Option (List Byte)) (s : State) : LoadResult :=
  load start file s.applyReset

/-- The exit status a load decides by itself: 1 where it fails (R24, R152). -/
def LoadResult.exitStatus : LoadResult → Option Nat
  | .loaded _ _ _ => none
  | .failed => some 1
  | .notCovered => none

end Sys2Proof.Machine
end

