-- ==== Sys2Proof/Safety.lean ====
section
/-! DEFINITION. The terms the statements use: what a completed instruction changes and leaves unchanged,
the invariant of a run, and the readings of what the source leaves open in the text pass. -/

namespace Sys2Proof.Machine

/-- From `s` to `t` the machine advanced as a completed instruction of `len` bytes and this cost does
(30_encoding.md R56): pc and cycles moved on, run and every byte of memory are unchanged. -/
def Advanced (len cost : Nat) (s t : State) : Prop :=
  t.pc.toNat = (s.pc.toNat + len) % 65536 ∧
  t.cycles.toNat = (s.cycles.toNat + cost) % 2 ^ 64 ∧
  t.run = s.run ∧
  ∀ a, t.memRead a = s.memRead a

/-- An instruction completed that wrote the value `v` into register `r`, and changed no other register,
no log, no byte of memory. -/
def WroteRegister (r : Reg) (v : Nat) (len cost : Nat) (s t : State) : Prop :=
  (t.reg r).toNat = v ∧
  (∀ q, q ≠ r → t.reg q = s.reg q) ∧
  t.out = s.out ∧
  t.diag = s.diag ∧
  Advanced len cost s t

/-- An instruction completed with the invalid-destination warning for the byte `b` (60_exceptions.md
R123): no register written, one event, the full length and cost consumed. -/
def WarnedInvalid (b : Byte) (len cost : Nat) (s t : State) : Prop :=
  (∀ q, t.reg q = s.reg q) ∧
  t.out = s.out ∧
  t.diag = s.diag ++ [.warnInvalidDestination s.pc b] ∧
  Advanced len cost s t

/-- The machine took a fatal fault (60_exceptions.md R121, R122, R125): one report, run Faulted with the
cause; registers, pc, cycles, the output log and every byte of memory unchanged. -/
def TookFault (cause : FaultCause) (s t : State) : Prop :=
  t.run = .faulted cause ∧
  t.diag = s.diag ++ [.faultReport cause] ∧
  (∀ q, t.reg q = s.reg q) ∧
  t.pc = s.pc ∧
  t.cycles = s.cycles ∧
  t.out = s.out ∧
  ∀ a, t.memRead a = s.memRead a

/-- The opcode bytes that 30_encoding.md R62 lists as illegal. -/
def illegalOpcode (op : Byte) : Prop :=
  op.toNat = 0x00 ∨ (0x02 ≤ op.toNat ∧ op.toNat ≤ 0x07) ∨ (0x0A ≤ op.toNat ∧ op.toNat ≤ 0x0F) ∨
  (0x18 ≤ op.toNat ∧ op.toNat ≤ 0x3F) ∨ (0x41 ≤ op.toNat ∧ op.toNat ≤ 0xFE)

/-- The address a fault cause names. -/
def FaultCause.pc0 : FaultCause → Addr
  | .unknownOpcode _ p => p
  | .divideByZero p => p

/-- The one report a run state calls for (60_exceptions.md R128): none while Running. -/
def State.report (s : State) : List DiagEvent :=
  match s.run with
  | .running => []
  | .haltedOk => [.haltReport s.pc s.cycles]
  | .faulted cause => [.faultReport cause]

/-- A warning about a byte that names no register (R123: "a destination byte d of 3 to 255"). -/
def DiagEvent.isWarning : DiagEvent → Prop
  | .warnInvalidDestination _ b => 3 ≤ b.toNat
  | .faultReport _ => False
  | .haltReport _ _ => False

/-- A fault cause the core can have (R120): the opcode byte it names is illegal, and it names the pc. -/
def State.causeOk (s : State) : Prop :=
  match s.run with
  | .running => True
  | .haltedOk => True
  | .faulted (.unknownOpcode op p) => illegalOpcode op ∧ p = s.pc
  | .faulted (.divideByZero p) => p = s.pc

/-- The invariant of a run: memory in canonical form; the diagnostic log is warnings about invalid
destination bytes, and then, exactly where the run has ended, its one report (R126, R128), carrying the
final pc and cycles; the fault cause names the terminating instruction. -/
def State.Inv (s : State) : Prop :=
  Memory.wf s.mem = true ∧
  (∃ ws : List DiagEvent, s.diag = ws ++ s.report ∧ ∀ e ∈ ws, e.isWarning) ∧
  s.causeOk

/-- One reading of the points 91_not_in_source.md N8 leaves open: where a comma that R70 does not list is
skipped, and which byte an open operand token emits, if it is accepted. -/
structure Reading where
  skipsComma : ParseState → Bool
  operandByte : List Byte → Option Byte

/-- The byte an operand token emits under a reading. -/
def operandUnder (ρ : Reading) (w : List Byte) : Option Byte :=
  match operandOf w with
  | .byte b => some b
  | .failed => none
  | .notCovered => ρ.operandByte w

/-- The statements of R71 under a reading: the emitted stream, or none where the text fails (R74). -/
def parseUnder (ρ : Reading) : ParseState → List Lexeme → Option (List Byte)
  | .statement, [] => some []
  | .statement, .comma :: rest => if ρ.skipsComma .statement then parseUnder ρ .statement rest else none
  | .statement, .word w :: rest =>
    match mnemonicOf w with
    | none => none
    | some m => (parseUnder ρ (ParseState.start m.arity) rest).map (m.opcode :: ·)
  | .operand _ _, [] => none
  | .operand more commaOk, .comma :: rest =>
    if commaOk || ρ.skipsComma (.operand more commaOk) then parseUnder ρ (.operand more false) rest else none
  | .operand more _, .word w :: rest =>
    match operandUnder ρ w with
    | none => none
    | some b => (parseUnder ρ (ParseState.after more) rest).map (b :: ·)

/-- The text pass under a reading. -/
def assembleUnder (ρ : Reading) (text : List Byte) : Option (List Byte) :=
  parseUnder ρ .statement (lex .text [] text)

end Sys2Proof.Machine
end

