-- ==== Sys2Proof/Certificates/Slice0/Obligations.lean ====
section
/-! DEFINITION. The statements for the provers. Each docstring names the rule of spec/ it formalises, and
says where a clause rests on a decision of the spec's own (92_eei_decisions.md) or of the model's; the log
entries are those of notes/assumptions/. -/

open Sys2Proof Sys2Proof.Machine

/-! Encoding (30_encoding.md). -/

/-- Decoding the encoding of a well-formed instruction gives it back, with the bytes that follow it
untouched: no operand bit is dropped (R51, R53, R54). -/
def Obligations.DecodeOfEncode : Prop :=
  ∀ (i : Instr) (rest : List Byte), i.wf = true → decode (encode i ++ rest) = .ok i rest

/-- Whatever the decoder accepts is well-formed and is exactly the encoding of what it answers: each
byte string has one meaning (R50, R52, R53, R54). -/
def Obligations.EncodeOfDecode : Prop :=
  ∀ (bytes rest : List Byte) (i : Instr), decode bytes = .ok i rest → i.wf = true ∧ encode i ++ rest = bytes

/-- Every opcode of R60 is legal for every value of its operand bytes: it decodes, to an instruction of
its own row (R61). -/
def Obligations.EveryOperandByteIsLegal : Prop :=
  ∀ (m : Mnemonic) (o1 o2 : Byte),
    ∃ i, decode ([m.opcode, o1, o2].take m.length) = .ok i [] ∧ i.wf = true ∧ i.mnemonic = m

/-- The words of 95_test_vectors.md S4, one for each table instruction, decode to the instruction their
text names. -/
def Obligations.SpecWordsDecode : Prop :=
  decode [0x01#8, 0x00#8, 0x05#8] = .ok (.mov (.reg .A) (.imm 5#8)) [] ∧
  decode [0x08#8, 0x00#8, 0x01#8] = .ok (.div (.reg .A) (.reg .B)) [] ∧
  decode [0x09#8, 0x00#8, 0x01#8] = .ok (.mul (.reg .A) (.reg .B)) [] ∧
  decode [0x10#8, 0x00#8, 0x01#8] = .ok (.add (.reg .A) (.reg .B)) [] ∧
  decode [0x11#8, 0x00#8, 0x3C#8] = .ok (.sub (.reg .A) (.imm 60#8)) [] ∧
  decode [0x12#8, 0x02#8, 0x01#8] = .ok (.and (.reg .C) (.reg .B)) [] ∧
  decode [0x13#8, 0x00#8, 0x01#8] = .ok (.or (.reg .A) (.reg .B)) [] ∧
  decode [0x14#8, 0x01#8, 0xFF#8] = .ok (.xor (.reg .B) (.imm 255#8)) [] ∧
  decode [0x15#8, 0x02#8] = .ok (.not (.reg .C)) [] ∧
  decode [0x16#8, 0x00#8, 0x01#8] = .ok (.nand (.reg .A) (.reg .B)) [] ∧
  decode [0x17#8, 0x01#8, 0x02#8] = .ok (.nor (.reg .B) (.reg .C)) [] ∧
  decode [0x40#8, 0x00#8] = .ok (.print (.reg .A)) [] ∧
  decode [0xFF#8] = .ok .halt []

/-- The decoder rejects an opcode byte by name exactly where R62 lists it as illegal, whatever follows. -/
def Obligations.IllegalOpcodesAreRejected : Prop :=
  ∀ (op : Byte) (rest : List Byte), decode (op :: rest) = .reject (.unknownOpcode op) ↔ illegalOpcode op

/-- The opcode, arity and cycle cost of every row, as R60 and R165 tabulate them. -/
def Obligations.OpcodeTableRows : Prop :=
  [Mnemonic.mov, .div, .mul, .add, .sub, .and, .or, .xor, .not, .nand, .nor, .print, .halt].map
      (fun m => (m.opcode.toNat, m.arity, m.cost)) =
    [(0x01, 2, 3), (0x08, 2, 10), (0x09, 2, 5), (0x10, 2, 3), (0x11, 2, 3), (0x12, 2, 1), (0x13, 2, 1),
     (0x14, 2, 1), (0x15, 1, 1), (0x16, 2, 2), (0x17, 2, 2), (0x40, 1, 2), (0xFF, 0, 1)]

/-- R53: a source byte of 0, 1 or 2 reads register A, B or C; every other byte is itself. -/
def Obligations.SourceByteResolution : Prop :=
  ∀ (s : State) (b : Byte),
    (b.toNat = 0 → s.resolve (Src.ofByte b) = s.A) ∧
    (b.toNat = 1 → s.resolve (Src.ofByte b) = s.B) ∧
    (b.toNat = 2 → s.resolve (Src.ofByte b) = s.C) ∧
    (3 ≤ b.toNat → s.resolve (Src.ofByte b) = b)

/-- A destination byte names A, B or C for 0, 1 or 2, and no register from 3 to 255 (R54). -/
def Obligations.DestinationByteDecoding : Prop :=
  ∀ b : Byte,
    (b.toNat = 0 → Dest.ofByte b = .reg .A) ∧
    (b.toNat = 1 → Dest.ofByte b = .reg .B) ∧
    (b.toNat = 2 → Dest.ofByte b = .reg .C) ∧
    (3 ≤ b.toNat → Dest.ofByte b = .invalid b)

/-! Instructions (files 40 to 43). Each states the result, the warning, the frame and the encoding. -/

/-- R80: `mov` writes the resolved source into the destination register.
The warning's fields are the spec's decision D6 (log entry 6; that it warns at all,
entry 23), the wrap of cycles modulo 2^64 its decision D14 (log entry 7, PRESUMED). -/
def Obligations.MovCopiesSource : Prop :=
  ∀ (src : Src) (s : State),
    (∀ r, ∃ t, exec (.mov (.reg r) src) s = .next t ∧
      WroteRegister r ((s.resolve src).toNat) 3 3 s t) ∧
    (∀ b, ∃ t, exec (.mov (.invalid b) src) s = .next t ∧ WarnedInvalid b 3 3 s t) ∧
    ∀ d, encode (.mov d src) = [0x01#8, d.toByte, src.toByte]

/-- R91: `add` writes the sum modulo 256.
The warning's fields are the spec's decision D6 (log entry 6; that it warns at all,
entry 23), the wrap of cycles modulo 2^64 its decision D14 (log entry 7, PRESUMED). -/
def Obligations.AddWritesSum : Prop :=
  ∀ (src : Src) (s : State),
    (∀ r, ∃ t, exec (.add (.reg r) src) s = .next t ∧
      WroteRegister r (((s.reg r).toNat + (s.resolve src).toNat) % 256) 3 3 s t) ∧
    (∀ b, ∃ t, exec (.add (.invalid b) src) s = .next t ∧ WarnedInvalid b 3 3 s t) ∧
    ∀ d, encode (.add d src) = [0x10#8, d.toByte, src.toByte]

/-- R92: `sub` writes the difference modulo 256, the non-negative remainder (R90).
The warning's fields are the spec's decision D6 (log entry 6; that it warns at all,
entry 23), the wrap of cycles modulo 2^64 its decision D14 (log entry 7, PRESUMED). -/
def Obligations.SubWritesDifference : Prop :=
  ∀ (src : Src) (s : State),
    (∀ r, ∃ t, exec (.sub (.reg r) src) s = .next t ∧
      WroteRegister r (if (s.resolve src).toNat ≤ (s.reg r).toNat
        then (s.reg r).toNat - (s.resolve src).toNat
        else (s.reg r).toNat + 256 - (s.resolve src).toNat) 3 3 s t) ∧
    (∀ b, ∃ t, exec (.sub (.invalid b) src) s = .next t ∧ WarnedInvalid b 3 3 s t) ∧
    ∀ d, encode (.sub d src) = [0x11#8, d.toByte, src.toByte]

/-- R93: `mul` writes the low byte of the product.
The warning's fields are the spec's decision D6 (log entry 6; that it warns at all,
entry 23), the wrap of cycles modulo 2^64 its decision D14 (log entry 7, PRESUMED). -/
def Obligations.MulWritesLowByte : Prop :=
  ∀ (src : Src) (s : State),
    (∀ r, ∃ t, exec (.mul (.reg r) src) s = .next t ∧
      WroteRegister r (((s.reg r).toNat * (s.resolve src).toNat) % 256) 3 5 s t) ∧
    (∀ b, ∃ t, exec (.mul (.invalid b) src) s = .next t ∧ WarnedInvalid b 3 5 s t) ∧
    ∀ d, encode (.mul d src) = [0x09#8, d.toByte, src.toByte]

/-- `div` by a divisor that is not 0 (R94, R90): the floor of the quotient, cost 10; with an invalid
destination, the warning and no write. The floor is the spec's reading of "integer division" (G3, log entry 8).
The warning's fields are the spec's decision D6 (log entry 6; that it warns at all,
entry 23), the wrap of cycles modulo 2^64 its decision D14 (log entry 7, PRESUMED). -/
def Obligations.DivWritesQuotient : Prop :=
  ∀ (src : Src) (s : State), s.resolve src ≠ 0#8 →
    (∀ r, ∃ t, exec (.div (.reg r) src) s = .next t ∧
      WroteRegister r ((s.reg r).toNat / (s.resolve src).toNat) 3 10 s t) ∧
    (∀ b, ∃ t, exec (.div (.invalid b) src) s = .next t ∧ WarnedInvalid b 3 10 s t) ∧
    ∀ d, encode (.div d src) = [0x08#8, d.toByte, src.toByte]

/-- `div` of a register by 0 takes the fatal fault and writes nothing (R94, R122). That pc and cycles
stay and what the report carries are decisions of the spec's own (D1, D2, D6; log entries 4, 5, 6). -/
def Obligations.DivByZeroFaults : Prop :=
  ∀ (r : Reg) (src : Src) (s : State), s.resolve src = 0#8 →
    ∃ t, exec (.div (.reg r) src) s = .next t ∧ TookFault (.divideByZero s.pc) s t

/-- `div` with an invalid destination and a zero divisor does what the open parameter
DIV_ZERO_WITH_INVALID_DEST says, for each of its values (R5, R94, R124, D5; log entry 3). The fault's pc,
cycles and report rest on the spec's decisions D1, D2 and D6 (log entries 4, 5, 6), the warning's fields on
D6 (log entry 6; that it warns at all, entry 23), the wrap of cycles on D14 (log entry 7, PRESUMED). -/
def Obligations.DivByZeroWithInvalidDestination : Prop :=
  ∀ (b : Byte) (src : Src) (s : State), s.resolve src = 0#8 →
    ∃ t, exec (.div (.invalid b) src) s = .next t ∧
      match Config.divZeroWithInvalidDest with
      | .fault => TookFault (.divideByZero s.pc) s t
      | .warn => WarnedInvalid b 3 10 s t

/-- A divisor of 0 can come only from a register: `div` with an encodable immediate source always
completes (R94, corner cases). The wrap of cycles modulo 2^64 is the spec's decision D14 (log entry 7,
PRESUMED). -/
def Obligations.DivByImmediateCompletes : Prop :=
  ∀ (d : Dest) (v : Byte) (s : State), (Src.imm v).wf = true →
    ∃ t, exec (.div d (.imm v)) s = .next t ∧ Advanced 3 10 s t

/-- R101: `and` writes the bitwise AND.
The warning's fields are the spec's decision D6 (log entry 6; that it warns at all,
entry 23), the wrap of cycles modulo 2^64 its decision D14 (log entry 7, PRESUMED). -/
def Obligations.AndWritesConjunction : Prop :=
  ∀ (src : Src) (s : State),
    (∀ r, ∃ t, exec (.and (.reg r) src) s = .next t ∧
      WroteRegister r ((s.reg r &&& s.resolve src).toNat) 3 1 s t) ∧
    (∀ b, ∃ t, exec (.and (.invalid b) src) s = .next t ∧ WarnedInvalid b 3 1 s t) ∧
    ∀ d, encode (.and d src) = [0x12#8, d.toByte, src.toByte]

/-- R102: `or` writes the bitwise inclusive OR.
The warning's fields are the spec's decision D6 (log entry 6; that it warns at all,
entry 23), the wrap of cycles modulo 2^64 its decision D14 (log entry 7, PRESUMED). -/
def Obligations.OrWritesDisjunction : Prop :=
  ∀ (src : Src) (s : State),
    (∀ r, ∃ t, exec (.or (.reg r) src) s = .next t ∧
      WroteRegister r ((s.reg r ||| s.resolve src).toNat) 3 1 s t) ∧
    (∀ b, ∃ t, exec (.or (.invalid b) src) s = .next t ∧ WarnedInvalid b 3 1 s t) ∧
    ∀ d, encode (.or d src) = [0x13#8, d.toByte, src.toByte]

/-- R103: `xor` writes the bitwise exclusive OR.
The warning's fields are the spec's decision D6 (log entry 6; that it warns at all,
entry 23), the wrap of cycles modulo 2^64 its decision D14 (log entry 7, PRESUMED). -/
def Obligations.XorWritesExclusiveOr : Prop :=
  ∀ (src : Src) (s : State),
    (∀ r, ∃ t, exec (.xor (.reg r) src) s = .next t ∧
      WroteRegister r ((s.reg r ^^^ s.resolve src).toNat) 3 1 s t) ∧
    (∀ b, ∃ t, exec (.xor (.invalid b) src) s = .next t ∧ WarnedInvalid b 3 1 s t) ∧
    ∀ d, encode (.xor d src) = [0x14#8, d.toByte, src.toByte]

/-- R104: `not` complements the destination register in place, within 8 bits; two bytes, cost 1.
The warning's fields are the spec's decision D6 (log entry 6; that it warns at all,
entry 23), the wrap of cycles modulo 2^64 its decision D14 (log entry 7, PRESUMED). -/
def Obligations.NotWritesComplement : Prop :=
  ∀ s : State,
    (∀ r, ∃ t, exec (.not (.reg r)) s = .next t ∧ WroteRegister r (255 - (s.reg r).toNat) 2 1 s t) ∧
    (∀ b, ∃ t, exec (.not (.invalid b)) s = .next t ∧ WarnedInvalid b 2 1 s t) ∧
    ∀ d, encode (.not d) = [0x15#8, d.toByte]

/-- R105: `nand` writes the complement of the bitwise AND.
The warning's fields are the spec's decision D6 (log entry 6; that it warns at all,
entry 23), the wrap of cycles modulo 2^64 its decision D14 (log entry 7, PRESUMED). -/
def Obligations.NandWritesComplementOfAnd : Prop :=
  ∀ (src : Src) (s : State),
    (∀ r, ∃ t, exec (.nand (.reg r) src) s = .next t ∧
      WroteRegister r (255 - (s.reg r &&& s.resolve src).toNat) 3 2 s t) ∧
    (∀ b, ∃ t, exec (.nand (.invalid b) src) s = .next t ∧ WarnedInvalid b 3 2 s t) ∧
    ∀ d, encode (.nand d src) = [0x16#8, d.toByte, src.toByte]

/-- R106: `nor` writes the complement of the bitwise OR.
The warning's fields are the spec's decision D6 (log entry 6; that it warns at all,
entry 23), the wrap of cycles modulo 2^64 its decision D14 (log entry 7, PRESUMED). -/
def Obligations.NorWritesComplementOfOr : Prop :=
  ∀ (src : Src) (s : State),
    (∀ r, ∃ t, exec (.nor (.reg r) src) s = .next t ∧
      WroteRegister r (255 - (s.reg r ||| s.resolve src).toNat) 3 2 s t) ∧
    (∀ b, ∃ t, exec (.nor (.invalid b) src) s = .next t ∧ WarnedInvalid b 3 2 s t) ∧
    ∀ d, encode (.nor d src) = [0x17#8, d.toByte, src.toByte]

/-- The six logic instructions work bit by bit: each result bit depends on the operands' bits at the same
place only (R100). -/
def Obligations.LogicWorksBitByBit : Prop :=
  ∀ (r : Reg) (src : Src) (s : State) (n : Nat), n < 8 →
    let a := (s.reg r).getLsbD n
    let b := (s.resolve src).getLsbD n
    (∃ t, exec (.and (.reg r) src) s = .next t ∧ (t.reg r).getLsbD n = (a && b)) ∧
    (∃ t, exec (.or (.reg r) src) s = .next t ∧ (t.reg r).getLsbD n = (a || b)) ∧
    (∃ t, exec (.xor (.reg r) src) s = .next t ∧ (t.reg r).getLsbD n = Bool.xor a b) ∧
    (∃ t, exec (.not (.reg r)) s = .next t ∧ (t.reg r).getLsbD n = !a) ∧
    (∃ t, exec (.nand (.reg r) src) s = .next t ∧ (t.reg r).getLsbD n = !(a && b)) ∧
    (∃ t, exec (.nor (.reg r) src) s = .next t ∧ (t.reg r).getLsbD n = !(a || b))

/-- R110: `print` appends the resolved value to the output log and changes no register, no memory and no
other log; two bytes, cost 2. The wrap of cycles modulo 2^64 is the spec's decision D14 (log entry 7,
PRESUMED). -/
def Obligations.PrintAppendsValue : Prop :=
  ∀ (src : Src) (s : State),
    (∃ t, exec (.print src) s = .next t ∧
      t.out = s.out ++ [s.resolve src] ∧
      (∀ q, t.reg q = s.reg q) ∧
      t.diag = s.diag ∧
      Advanced 2 2 s t) ∧
    encode (.print src) = [0x40#8, src.toByte]

/-- R111: `halt` adds its cost of 1, keeps pc, reports both, and ends the run with exit status 0. The wrap
of cycles modulo 2^64 is the spec's decision D14 (log entry 7, PRESUMED). -/
def Obligations.HaltEndsRun : Prop :=
  ∀ s : State,
    (∃ t, exec .halt s = .next t ∧
      t.cycles.toNat = (s.cycles.toNat + 1) % 2 ^ 64 ∧
      t.pc = s.pc ∧
      t.diag = s.diag ++ [.haltReport s.pc t.cycles] ∧
      t.run = .haltedOk ∧
      t.exitStatus = some 0 ∧
      (∀ q, t.reg q = s.reg q) ∧
      t.out = s.out ∧
      ∀ a, t.memRead a = s.memRead a) ∧
    encode .halt = [0xFF#8]

/-- `xor r,r` and `sub r,r` load 0 whatever the register held (R160, R103, R92). The wrap of cycles modulo
2^64 is the spec's decision D14 (log entry 7, PRESUMED). -/
def Obligations.SelfXorAndSelfSubClear : Prop :=
  ∀ (r : Reg) (s : State),
    (∃ t, exec (.xor (.reg r) (.reg r)) s = .next t ∧ WroteRegister r 0 3 1 s t) ∧
    (∃ t, exec (.sub (.reg r) (.reg r)) s = .next t ∧ WroteRegister r 0 3 3 s t)

/-! The whole machine. -/

/-- Every instruction answers a next state in every state: none stops and none is refused (R56, R61). -/
def Obligations.EveryInstructionExecutes : Prop :=
  ∀ (i : Instr) (s : State), ∃ t, exec i s = .next t

/-- An instruction writes at most one register, and `print` and `halt` write none (R11). -/
def Obligations.AtMostOneRegisterChanges : Prop :=
  ∀ (i : Instr) (s t : State), exec i s = .next t →
    (∃ r, ∀ q, q ≠ r → t.reg q = s.reg q) ∧
    ((i.mnemonic = .print ∨ i.mnemonic = .halt) → ∀ q, t.reg q = s.reg q)

/-- No instruction writes memory: not the cells, and so no byte that a read gives (R34). -/
def Obligations.NoInstructionWritesMemory : Prop :=
  ∀ (i : Instr) (s t : State), exec i s = .next t → t.mem = s.mem ∧ ∀ a, t.memRead a = s.memRead a

/-- Memory is constant for a whole run, from any state, of any length (R34, R41, R156). -/
def Obligations.MemoryIsConstantOverRuns : Prop :=
  ∀ (n : Nat) (s t : State), Sys2Proof.core.run n s = .next t → t.mem = s.mem ∧ ∀ a, t.memRead a = s.memRead a

/-- Both logs only grow over a run: what was printed or reported stays, in its order (R16, R17, R23). -/
def Obligations.LogsOnlyGrowOverRuns : Prop :=
  ∀ (n : Nat) (s t : State), Sys2Proof.core.run n s = .next t →
    (∃ o, t.out = s.out ++ o) ∧ ∃ d, t.diag = s.diag ++ d

/-- When the three bytes from pc on decode to a well-formed instruction, a running machine's step is that
instruction's meaning at this state, and nothing else (R56). -/
def Obligations.StepRunsDecodedInstruction : Prop :=
  ∀ (s : State) (i : Instr) (rest : List Byte), s.run = .running →
    decode [s.memRead s.pc, s.memRead (s.pc + 1#16), s.memRead (s.pc + 2#16)] = .ok i rest → i.wf = true →
    step s = exec i s

/-- When memory holds the encoding of a well-formed instruction from pc on, modulo 65536, a running
machine's step is that instruction's meaning (R31, R42, R51, R56). -/
def Obligations.StepRunsEncodedInstruction : Prop :=
  ∀ (s : State) (i : Instr), s.run = .running → i.wf = true →
    (∀ k, k < (encode i).length → s.memRead (s.pc + BitVec.ofNat 16 k) = (encode i).getD k 0#8) →
    step s = exec i s

/-- Fetching an illegal opcode byte is the fatal decode fault, with that byte and its address (R62, R121).
That cycles stay is a decision of the spec's own (D2, log entry 5). -/
def Obligations.IllegalOpcodeFaults : Prop :=
  ∀ s : State, s.run = .running → illegalOpcode (s.memRead s.pc) →
    ∃ t, step s = .next t ∧ TookFault (.unknownOpcode (s.memRead s.pc) s.pc) s t

/-- A step exists exactly while the machine is Running; in HaltedOk and Faulted there is none, and the
answer says how the run ended (R56, R126). That the end of a run is answered as a Host fault is the
model's choice (log entry 9). -/
def Obligations.StepExistsExactlyWhileRunning : Prop :=
  ∀ s : State,
    ((∃ t, step s = .next t) ↔ s.run = .running) ∧
    (s.run = .haltedOk → step s = .fault .endedOk) ∧
    ∀ c, s.run = .faulted c → step s = .fault (.endedFaulted c)

/-- The program counter after a step: past the instruction's bytes modulo 65536 while the run goes on, at
the opcode byte where it ends (R13; for division by zero the spec's decision D1, log entry 4). -/
def Obligations.ProgramCounterAfterStep : Prop :=
  ∀ s t : State, step s = .next t →
    (t.run = .running → ∃ m, Mnemonic.ofOpcode (s.memRead s.pc) = some m ∧
      t.pc.toNat = (s.pc.toNat + 1 + m.arity) % 65536) ∧
    (t.run ≠ .running → t.pc = s.pc)

/-- The cycle counter after a step: the opcode's listed cost is added once, modulo 2^64, unless the step
ends in a fault (R14, R165; the wrap and the fault clause are decisions of the spec's own, D14, PRESUMED,
and D2; log entries 7 and 5). -/
def Obligations.CyclesAfterStep : Prop :=
  ∀ s t : State, step s = .next t →
    (t.run = .running ∨ t.run = .haltedOk → ∃ m, Mnemonic.ofOpcode (s.memRead s.pc) = some m ∧
      t.cycles.toNat = (s.cycles.toNat + m.cost) % 2 ^ 64) ∧
    ∀ c, t.run = .faulted c → t.cycles = s.cycles

/-- The transitions of the run state: to HaltedOk exactly at a `halt` opcode byte, to Faulted with
UnknownOpcode exactly at an illegal opcode byte, to Faulted with DivideByZero only at a `div` opcode
byte (R15, R120). That the DivideByZero cause names pc rests on the spec's decisions D1 and D6 (log
entries 4 and 6). -/
def Obligations.RunStateTransitions : Prop :=
  ∀ s t : State, step s = .next t →
    (t.run = .haltedOk ↔ (s.memRead s.pc).toNat = 0xFF) ∧
    (t.run = .faulted (.unknownOpcode (s.memRead s.pc) s.pc) ↔ illegalOpcode (s.memRead s.pc)) ∧
    (∀ op p, t.run = .faulted (.unknownOpcode op p) → op = s.memRead s.pc ∧ p = s.pc) ∧
    (∀ p, t.run = .faulted (.divideByZero p) → (s.memRead s.pc).toNat = 0x08 ∧ p = s.pc)

/-- Faults are precise: a step that ends Faulted wrote no register, and pc names the instruction (R125;
for division by zero the pc rests on D1 and the fields of the report and the cause on D6, and for both
faults the unchanged cycles on D2; log entries 4, 6 and 5). -/
def Obligations.FaultsArePrecise : Prop :=
  ∀ (s t : State) (c : FaultCause), step s = .next t → t.run = .faulted c →
    TookFault c s t ∧ c.pc0 = s.pc ∧ t.exitStatus = some 1

/-- Each step produces at most one output event and at most one diagnostic event (R23, a decision of the
spec's own, D8; log entry 10). -/
def Obligations.AtMostOneEventPerStep : Prop :=
  ∀ s t : State, step s = .next t →
    (t.out = s.out ∨ ∃ v, t.out = s.out ++ [v]) ∧ (t.diag = s.diag ∨ ∃ e, t.diag = s.diag ++ [e])

/-- One step presents one to three addresses, from pc on in order modulo 65536: as many as the
instruction has bytes, and exactly one for an illegal opcode (R21, R31; the read port is a decision of
the spec's own, D8). -/
def Obligations.FetchAddressesOfStep : Prop :=
  ∀ s : State,
    1 ≤ s.fetchAddrs.length ∧ s.fetchAddrs.length ≤ 3 ∧
    (∀ k, k < s.fetchAddrs.length → (s.fetchAddrs.getD k 0#16).toNat = (s.pc.toNat + k) % 65536) ∧
    (illegalOpcode (s.memRead s.pc) → s.fetchAddrs.length = 1) ∧
    ∀ i, s.fetch = .instr i → s.fetchAddrs.length = (encode i).length

/-- A step depends on no memory byte but those it fetches: two states that agree on everything else and
on the bytes at the fetched addresses step alike, memory apart (R21, R32, R34, R42). -/
def Obligations.StepReadsOnlyFetchedBytes : Prop :=
  ∀ (s t : State) (m : Memory),
    (∀ a ∈ s.fetchAddrs, Memory.read m a = s.memRead a) → step s = .next t →
    step { s with mem := m } = .next { t with mem := m }

/-- Every step keeps the invariant: canonical memory, warnings only about invalid destination bytes,
exactly one report and only once the run has ended, carrying the final pc and cycles (R123, R125, R126,
R128). That a warning carries its byte is the spec's decision D6 (log entry 6), that a DivideByZero cause
and its report name pc its decisions D1 and D6 (log entries 4 and 6). -/
def Obligations.StepKeepsInvariant : Prop :=
  ∀ s t : State, s.Inv → step s = .next t → t.Inv

/-- The state after reset meets the invariant (R27; the empty log by D8, log entry 12). -/
def Obligations.ResetMeetsInvariant : Prop := State.reset.Inv

/-- The values reset gives (R27, R150): registers, pc and cycles 0, Running, both logs empty (the logs by
D8), and every memory cell its MEM_INIT byte (D3). -/
def Obligations.ResetValues : Prop :=
  (∀ r, State.reset.reg r = 0#8) ∧ State.reset.pc = 0#16 ∧ State.reset.cycles = 0#64 ∧
  State.reset.run = .running ∧ State.reset.out = [] ∧ State.reset.diag = [] ∧
  ∀ a, State.reset.memRead a = Config.memInit a

/-- Reset applied in any state gives the reset values and does not write memory, so a terminal state has
a way out (R126, R150; reset at any time is a decision of the spec's own, D8). -/
def Obligations.ResetAtAnyTime : Prop :=
  ∀ s : State,
    (∀ r, s.applyReset.reg r = 0#8) ∧ s.applyReset.pc = 0#16 ∧ s.applyReset.cycles = 0#64 ∧
    s.applyReset.run = .running ∧ s.applyReset.out = [] ∧ s.applyReset.diag = [] ∧
    (∀ a, s.applyReset.memRead a = s.memRead a) ∧
    ∃ t, step s.applyReset = .next t

/-- The exit status: none while Running, 0 when HaltedOk, 1 when Faulted (R24). -/
def Obligations.ExitStatusOfRunState : Prop :=
  ∀ s : State,
    (s.exitStatus = none ↔ s.run = .running) ∧
    (s.exitStatus = some 0 ↔ s.run = .haltedOk) ∧
    (s.exitStatus = some 1 ↔ ∃ c, s.run = .faulted c)

/-- A one-byte write is read back, changes no other cell and nothing else (R32, R33). -/
def Obligations.WriteChangesOneCell : Prop :=
  ∀ (s : State) (a : Addr) (v : Byte),
    (s.memWrite a v).memRead a = v ∧
    (∀ b, b ≠ a → (s.memWrite a v).memRead b = s.memRead b) ∧
    { s.memWrite a v with mem := s.mem } = s

/-- The printed line of a value is its decimal numeral, most significant digit first, no leading zero,
the single digit 0 for the value 0, and one line terminator 0x0A (R16; leading zeros and terminator by the
spec's decision D7, log entry 11, PRESUMED). -/
def Obligations.PrintedLineIsDecimal : Prop :=
  ∀ v : Byte, ∃ ds : List Byte,
    printLine v = ds ++ [0x0A#8] ∧
    ds ≠ [] ∧
    (∀ d ∈ ds, 0x30 ≤ d.toNat ∧ d.toNat ≤ 0x39) ∧
    ds.foldl (fun n d => n * 10 + (d.toNat - 0x30)) 0 = v.toNat ∧
    (ds.head? = some 0x30#8 → ds = [0x30#8])

/-! The loader (70_reset_and_hazards.md). -/

/-- R75: the worked assembly. -/
def Obligations.WorkedAssembly : Prop :=
  assemble ("mov A,5\nmov B,3\nadd A,B\nprint A\nhalt".toList.map ascii) =
    .image [0x01#8, 0x00#8, 0x05#8, 0x01#8, 0x01#8, 0x03#8, 0x10#8, 0x00#8, 0x01#8, 0x40#8, 0x00#8, 0xFF#8]

/-- The text of a well-formed instruction assembles to its encoding (R72, R73). -/
def Obligations.InstructionTextAssembles : Prop :=
  ∀ i : Instr, i.wf = true → assemble (instrText i) = .image (encode i)

/-- A program text, one instruction a line, assembles to the encodings of its instructions in order (R71,
R73). -/
def Obligations.ProgramTextAssembles : Prop :=
  ∀ is : List Instr, (∀ i ∈ is, i.wf = true) → assemble (programText is) = .image (is.flatMap encode)

/-- A load that succeeds writes its image at `[start, start + n)`, below 65536, reports n, and changes no
other cell and nothing else; the image is the assembled stream, or the file's raw bytes clipped to
capacity where the text pass fails (R153, R154, R155). That a text which both overflows and fails to parse
is copied raw is DEDUCED (log entry 20). -/
def Obligations.LoadWritesImage : Prop :=
  ∀ (start : Nat) (bytes : List Byte) (s t : State) (n : Nat) (fellBack : Bool),
    load start (some bytes) s = .loaded t n fellBack →
    ∃ img : List Byte,
      img.length = n ∧ start + n ≤ 65536 ∧
      (fellBack = false → assemble bytes = .image img) ∧
      (fellBack = true → assemble bytes = .failed ∧ img = bytes.take (65536 - start)) ∧
      (∀ k, k < n → t.memRead (BitVec.ofNat 16 (start + k)) = img.getD k 0#8) ∧
      (∀ a : Addr, a.toNat < start ∨ start + n ≤ a.toNat → t.memRead a = s.memRead a) ∧
      { t with mem := s.mem } = s

/-- The load failures: a file that cannot be opened, a start address outside memory, and an assembled
stream over capacity; while a raw copy over capacity is clipped and loads (R155, 90_conflicts.md C7). The
raw-copy clause covers a text that both overflows and fails to parse, which is DEDUCED (log entry 20). -/
def Obligations.LoadFailures : Prop :=
  ∀ (start : Nat) (s : State),
    load start none s = .failed ∧
    ∀ bytes : List Byte,
      (65536 ≤ start → load start (some bytes) s = .failed) ∧
      (start < 65536 → ∀ img, assemble bytes = .image img →
        (load start (some bytes) s = .failed ↔ 65536 - start < img.length)) ∧
      (start < 65536 → assemble bytes = .failed →
        ∃ t, load start (some bytes) s = .loaded t (min bytes.length (65536 - start)) true)

/-- A text program and its hand-written bytecode, where the bytecode is loaded in binary mode, leave the
same machine (R157). -/
def Obligations.TextAndBytecodeLoadAlike : Prop :=
  ∀ (start : Nat) (is : List Instr) (s : State), (∀ i ∈ is, i.wf = true) → start < 65536 →
    (is.flatMap encode).length ≤ 65536 - start → assemble (is.flatMap encode) = .failed →
    ∃ t, load start (some (programText is)) s = .loaded t (is.flatMap encode).length false ∧
      load start (some (is.flatMap encode)) s = .loaded t (is.flatMap encode).length true

/-! Field positions, and what settles a text. -/

/-- R51: the fields of the three formats, by the opcode byte at pc0: format B has the destination byte at
pc0 + 1 and the source byte at pc0 + 2, format U its one operand byte at pc0 + 1, format Z none, addresses
modulo 65536. -/
def Obligations.FieldPositions : Prop :=
  ∀ s : State,
    (s.memRead s.pc = 0x01#8 → s.fetch = .instr
      (.mov (Dest.ofByte (s.memRead (s.pc + 1#16))) (Src.ofByte (s.memRead (s.pc + 2#16))))) ∧
    (s.memRead s.pc = 0x08#8 → s.fetch = .instr
      (.div (Dest.ofByte (s.memRead (s.pc + 1#16))) (Src.ofByte (s.memRead (s.pc + 2#16))))) ∧
    (s.memRead s.pc = 0x09#8 → s.fetch = .instr
      (.mul (Dest.ofByte (s.memRead (s.pc + 1#16))) (Src.ofByte (s.memRead (s.pc + 2#16))))) ∧
    (s.memRead s.pc = 0x10#8 → s.fetch = .instr
      (.add (Dest.ofByte (s.memRead (s.pc + 1#16))) (Src.ofByte (s.memRead (s.pc + 2#16))))) ∧
    (s.memRead s.pc = 0x11#8 → s.fetch = .instr
      (.sub (Dest.ofByte (s.memRead (s.pc + 1#16))) (Src.ofByte (s.memRead (s.pc + 2#16))))) ∧
    (s.memRead s.pc = 0x12#8 → s.fetch = .instr
      (.and (Dest.ofByte (s.memRead (s.pc + 1#16))) (Src.ofByte (s.memRead (s.pc + 2#16))))) ∧
    (s.memRead s.pc = 0x13#8 → s.fetch = .instr
      (.or (Dest.ofByte (s.memRead (s.pc + 1#16))) (Src.ofByte (s.memRead (s.pc + 2#16))))) ∧
    (s.memRead s.pc = 0x14#8 → s.fetch = .instr
      (.xor (Dest.ofByte (s.memRead (s.pc + 1#16))) (Src.ofByte (s.memRead (s.pc + 2#16))))) ∧
    (s.memRead s.pc = 0x16#8 → s.fetch = .instr
      (.nand (Dest.ofByte (s.memRead (s.pc + 1#16))) (Src.ofByte (s.memRead (s.pc + 2#16))))) ∧
    (s.memRead s.pc = 0x17#8 → s.fetch = .instr
      (.nor (Dest.ofByte (s.memRead (s.pc + 1#16))) (Src.ofByte (s.memRead (s.pc + 2#16))))) ∧
    (s.memRead s.pc = 0x15#8 → s.fetch = .instr (.not (Dest.ofByte (s.memRead (s.pc + 1#16))))) ∧
    (s.memRead s.pc = 0x40#8 → s.fetch = .instr (.print (Src.ofByte (s.memRead (s.pc + 1#16))))) ∧
    (s.memRead s.pc = 0xFF#8 → s.fetch = .instr .halt)

/-- The text pass answers a failure exactly where the text fails under every reading of what N8 leaves
open, and a stream exactly where every reading emits it; so a failure anywhere in the scan, after an open
point too, is one (R74, R154). What the readings are is the model's choice (log entry 19). -/
def Obligations.TextPassSettledWhereReadingsAgree : Prop :=
  ∀ text : List Byte,
    (assemble text = .failed ↔ ∀ ρ : Reading, assembleUnder ρ text = none) ∧
    ∀ bytes, assemble text = .image bytes ↔ ∀ ρ : Reading, assembleUnder ρ text = some bytes

/-- A file whose first token is not a mnemonic loads byte for byte, clipped to capacity, whatever follows
and whatever commas stand before that token (R74, R154, R155, 95_test_vectors.md S5). Where a token ends
is read with log entries 17 and 18; a text that would also overflow by log entry 20. -/
def Obligations.UnknownFirstTokenLoadsRaw : Prop :=
  ∀ (start commas : Nat) (bytes w : List Byte) (rest : List Lexeme) (s : State), start < 65536 →
    lex .text [] bytes = List.replicate commas .comma ++ .word w :: rest → mnemonicOf w = none →
    load start (some bytes) s =
      .loaded (s.storeBytes (BitVec.ofNat 16 start) (bytes.take (65536 - start)))
        (min bytes.length (65536 - start)) true
end

