-- ==== Sys2Proof/Laws/Alu.lean ====
section
/-! SUPPORT. Each result of Machine/Alu.lean as a number (41_arithmetic.md R90, 42_logic.md R100). -/

namespace Sys2Proof.Machine

theorem aluAdd_toNat (a b : Byte) : (aluAdd a b).toNat = (a.toNat + b.toNat) % 256 := by
  simp [aluAdd]

theorem aluSub_toNat (a b : Byte) :
    (aluSub a b).toNat = if b.toNat ≤ a.toNat then a.toNat - b.toNat else a.toNat + 256 - b.toNat := by
  have ha := a.isLt
  have hb := b.isLt
  simp only [aluSub, BitVec.toNat_ofInt]
  split <;> omega

theorem aluMul_toNat (a b : Byte) : (aluMul a b).toNat = (a.toNat * b.toNat) % 256 := by
  have h : a.toNat * b.toNat < 65536 := by
    have := Nat.mul_lt_mul'' a.isLt b.isLt
    omega
  have ha : a.toNat % 65536 = a.toNat := Nat.mod_eq_of_lt (by omega)
  have hb : b.toNat % 65536 = b.toNat := Nat.mod_eq_of_lt (by omega)
  simp [aluMul, ha, hb, Nat.mod_eq_of_lt h]

theorem aluDiv_toNat (a b : Byte) : (aluDiv a b).toNat = a.toNat / b.toNat := by
  have h : a.toNat / b.toNat < 256 := Nat.lt_of_le_of_lt (Nat.div_le_self _ _) a.isLt
  simp [aluDiv, Nat.mod_eq_of_lt h]

theorem aluNot_toNat (a : Byte) : (aluNot a).toNat = 255 - a.toNat := by
  simp [aluNot, BitVec.toNat_not]

theorem aluNand_toNat (a b : Byte) : (aluNand a b).toNat = 255 - (a &&& b).toNat := by
  simp [aluNand, BitVec.toNat_not]

theorem aluNor_toNat (a b : Byte) : (aluNor a b).toNat = 255 - (a ||| b).toNat := by
  simp [aluNor, BitVec.toNat_not]

end Sys2Proof.Machine
end

