-- ==== Sys2Proof/Laws/Assembler.lean ====
section
/-! SUPPORT. The small lemmas of the text pass: how a token is read up to what ends it. -/

namespace Sys2Proof.Machine

/-- A byte that neither ends a token nor may open a comment. -/
def tokenByte (b : Byte) : Bool := !(b == ascii '/') && !(b == ascii ',') && !(isSpace b)

/-- Token bytes are gathered, newest first. -/
theorem lex_token (w : List Byte) (h : w.all tokenByte = true) (acc rest : List Byte) :
    lex .text acc (w ++ rest) = lex .text (w.reverse ++ acc) rest := by
  induction w generalizing acc with
  | nil => rfl
  | cons b w ih =>
    simp only [List.all_cons, Bool.and_eq_true, tokenByte, Bool.not_eq_true', beq_eq_false_iff_ne] at h
    obtain ⟨⟨⟨h1, h2⟩, h3⟩, h4⟩ := h
    simp only [List.cons_append, lex, h1, h2, h3, if_false]
    rw [if_neg (by simp), ih h4]
    simp

theorem endWord_reverse (w : List Byte) (h : w ≠ []) (rest : List Lexeme) :
    endWord w.reverse rest = .word w :: rest := by
  simp [endWord, h]

/-- A token ended by a space. -/
theorem lex_token_space (w : List Byte) (h : w.all tokenByte = true) (h0 : w ≠ []) (rest : List Byte) :
    lex .text [] (w ++ ascii ' ' :: rest) = .word w :: lex .text [] rest := by
  rw [lex_token w h]
  simp [lex, endWord_reverse w h0, isSpace, ascii]

/-- A token ended by a line end. -/
theorem lex_token_newline (w : List Byte) (h : w.all tokenByte = true) (h0 : w ≠ []) (rest : List Byte) :
    lex .text [] (w ++ newline :: rest) = .word w :: lex .text [] rest := by
  rw [lex_token w h]
  simp [lex, endWord_reverse w h0, isSpace, ascii, newline]

/-- A token ended by a comma (R70). -/
theorem lex_token_comma (w : List Byte) (h : w.all tokenByte = true) (h0 : w ≠ []) (rest : List Byte) :
    lex .text [] (w ++ ascii ',' :: rest) = .word w :: .comma :: lex .text [] rest := by
  rw [lex_token w h]
  simp [lex, endWord_reverse w h0, ascii]

/-- A token ended by the end of the text. -/
theorem lex_token_end (w : List Byte) (h : w.all tokenByte = true) (h0 : w ≠ []) :
    lex .text [] w = [.word w] := by
  have := lex_token w h [] []
  simp only [List.append_nil] at this
  rw [this]
  simp [lex, endWord_reverse w h0]

/-- Every mnemonic's name is a token that names it. -/
theorem mnemonicName_token (m : Mnemonic) :
    (mnemonicName m).all tokenByte = true ∧ mnemonicName m ≠ [] ∧ mnemonicOf (mnemonicName m) = some m := by
  cases m <;> decide

@[simp] theorem AsmResult.openPoint_failed : AsmResult.openPoint .failed = .failed := rfl
@[simp] theorem AsmResult.openPoint_image (bs : List Byte) : AsmResult.openPoint (.image bs) = .notCovered := rfl
@[simp] theorem AsmResult.openPoint_notCovered : AsmResult.openPoint .notCovered = .notCovered := rfl
@[simp] theorem AsmResult.emit_failed (b : Byte) : AsmResult.emit b .failed = .failed := rfl
@[simp] theorem AsmResult.emit_image (b : Byte) (bs : List Byte) : AsmResult.emit b (.image bs) = .image (b :: bs) := rfl
@[simp] theorem AsmResult.emit_notCovered (b : Byte) : AsmResult.emit b .notCovered = .notCovered := rfl

/-- An open point never settles an image. -/
theorem AsmResult.openPoint_ne_image (r : AsmResult) (bs : List Byte) : r.openPoint ≠ .image bs := by
  cases r <;> simp

/-- After an open point a failure is settled exactly where the acceptance fails too. -/
theorem AsmResult.openPoint_eq_failed (r : AsmResult) : r.openPoint = .failed ↔ r = .failed := by
  cases r <;> simp

/-- One more byte before the stream changes no failure. -/
theorem AsmResult.emit_eq_failed (b : Byte) (r : AsmResult) : r.emit b = .failed ↔ r = .failed := by
  cases r <;> simp

/-- Everything a load that writes memory did (R153 to R155). -/
theorem load_cases {start : Nat} {bytes : List Byte} {s t : State} {n : Nat} {fellBack : Bool}
    (h : load start (some bytes) s = .loaded t n fellBack) :
    ∃ img, start + img.length ≤ 65536 ∧ n = img.length ∧ t = s.storeBytes (BitVec.ofNat 16 start) img ∧
      ((fellBack = false ∧ assemble bytes = .image img) ∨
       (fellBack = true ∧ assemble bytes = .failed ∧ img = bytes.take (capacity start))) := by
  simp only [load] at h
  split at h
  · cases h
  · split at h
    · rename_i img hi
      split at h
      · rename_i hl
        unfold capacity at hl
        cases h
        exact ⟨img, by omega, rfl, rfl, .inl ⟨rfl, hi⟩⟩
      · cases h
    · rename_i hi
      cases h
      refine ⟨_, ?_, rfl, rfl, .inr ⟨rfl, hi, rfl⟩⟩
      have : (bytes.take (capacity start)).length ≤ 65536 - start := by simp [capacity]
      omega
    · cases h

end Sys2Proof.Machine
end

