-- ==== Sys2Proof/Laws/Decode.lean ====
section
/-! SUPPORT. The small lemmas of the decoder and the encoder. -/

namespace Sys2Proof

/-- Each row is found by its own opcode: no two rows share one. -/
@[simp] theorem Mnemonic.ofOpcode_opcode (m : Mnemonic) : Mnemonic.ofOpcode m.opcode = some m := by
  cases m <;> decide

/-- The row found for a byte has that byte as its opcode. -/
theorem Mnemonic.opcode_of_ofOpcode {op : Byte} {m : Mnemonic} (h : Mnemonic.ofOpcode op = some m) :
    m.opcode = op := by
  have := List.find?_some h
  simpa using this

/-- No two rows of the table have the same opcode. -/
theorem Mnemonic.table_opcodes_distinct : Mnemonic.table.Pairwise (fun m n => m.opcode ≠ n.opcode) := by
  decide

/-- Every mnemonic is a row of the table. -/
theorem Mnemonic.mem_table (m : Mnemonic) : m ∈ Mnemonic.table := by cases m <;> decide

@[simp] theorem Reg.ofCode_code (r : Reg) : Reg.ofCode r.code = some r := by cases r <;> decide

theorem Reg.code_of_ofCode {b : Byte} {r : Reg} (h : Reg.ofCode b = some r) : r.code = b := by
  simp only [Reg.ofCode] at h
  split at h
  · cases h; simp_all [Reg.code]
  · split at h
    · cases h; simp_all [Reg.code]
    · split at h
      · cases h; simp_all [Reg.code]
      · cases h

theorem Reg.ofCode_eq_none {b : Byte} : Reg.ofCode b = none ↔ 3 ≤ b.toNat := by
  simp only [Reg.ofCode]
  constructor
  · intro h
    split at h
    · cases h
    · split at h
      · cases h
      · split at h
        · cases h
        · bv_omega
  · intro h
    rw [if_neg (by bv_omega), if_neg (by bv_omega), if_neg (by bv_omega)]

theorem Src.ofByte_toByte (s : Src) (h : s.wf = true) : Src.ofByte s.toByte = s := by
  cases s with
  | reg r => simp [Src.toByte, Src.ofByte]
  | imm v =>
    have : Reg.ofCode v = none := Reg.ofCode_eq_none.2 (by simpa [Src.wf] using h)
    simp [Src.toByte, Src.ofByte, this]

theorem Dest.ofByte_toByte (d : Dest) (h : d.wf = true) : Dest.ofByte d.toByte = d := by
  cases d with
  | reg r => simp [Dest.toByte, Dest.ofByte]
  | invalid b =>
    have : Reg.ofCode b = none := Reg.ofCode_eq_none.2 (by simpa [Dest.wf] using h)
    simp [Dest.toByte, Dest.ofByte, this]

theorem Src.toByte_ofByte (b : Byte) : (Src.ofByte b).toByte = b := by
  unfold Src.ofByte
  split
  · exact Reg.code_of_ofCode ‹_›
  · rfl

theorem Dest.toByte_ofByte (b : Byte) : (Dest.ofByte b).toByte = b := by
  unfold Dest.ofByte
  split
  · exact Reg.code_of_ofCode ‹_›
  · rfl

theorem Src.ofByte_wf (b : Byte) : (Src.ofByte b).wf = true := by
  unfold Src.ofByte
  split
  · rfl
  · simpa [Src.wf] using Reg.ofCode_eq_none.1 ‹_›

theorem Dest.ofByte_wf (b : Byte) : (Dest.ofByte b).wf = true := by
  unfold Dest.ofByte
  split
  · rfl
  · simpa [Dest.wf] using Reg.ofCode_eq_none.1 ‹_›

/-- An instruction built from operand bytes is well-formed. -/
theorem Mnemonic.instr_wf (m : Mnemonic) (o1 o2 : Byte) : (m.instr o1 o2).wf = true := by
  cases m <;> simp [Mnemonic.instr, Instr.wf, Dest.ofByte_wf, Src.ofByte_wf]

@[simp] theorem Mnemonic.instr_mnemonic (m : Mnemonic) (o1 o2 : Byte) : (m.instr o1 o2).mnemonic = m := by
  cases m <;> rfl

/-- What the decoder over a source of bytes can answer. -/
theorem decodeFrom_eq_some {read : Nat → Byte} {i : Instr} (h : decodeFrom read = some i) :
    ∃ m, Mnemonic.ofOpcode (read 0) = some m ∧ i = m.instr (read 1) (read 2) := by
  unfold decodeFrom at h
  split at h
  · cases h
  · exact ⟨_, ‹_›, (Option.some.inj h).symm⟩

theorem decodeFrom_eq_none {read : Nat → Byte} :
    decodeFrom read = none ↔ Mnemonic.ofOpcode (read 0) = none := by
  unfold decodeFrom
  split <;> simp_all

end Sys2Proof
end

