-- ==== Sys2Proof/Laws/State.lean ====
section
/-! SUPPORT. The small lemmas of State: what each update leaves in each field, and what the reads give
after it. -/

namespace Sys2Proof.Machine

/-! setReg -/

@[simp] theorem State.setReg_pc (s : State) (r : Reg) (v : Byte) : (s.setReg r v).pc = s.pc := by cases r <;> rfl
@[simp] theorem State.setReg_cycles (s : State) (r : Reg) (v : Byte) : (s.setReg r v).cycles = s.cycles := by cases r <;> rfl
@[simp] theorem State.setReg_run (s : State) (r : Reg) (v : Byte) : (s.setReg r v).run = s.run := by cases r <;> rfl
@[simp] theorem State.setReg_out (s : State) (r : Reg) (v : Byte) : (s.setReg r v).out = s.out := by cases r <;> rfl
@[simp] theorem State.setReg_diag (s : State) (r : Reg) (v : Byte) : (s.setReg r v).diag = s.diag := by cases r <;> rfl
@[simp] theorem State.setReg_mem (s : State) (r : Reg) (v : Byte) : (s.setReg r v).mem = s.mem := by cases r <;> rfl
@[simp] theorem State.reg_setReg_self (s : State) (r : Reg) (v : Byte) : (s.setReg r v).reg r = v := by
  cases r <;> rfl
theorem State.reg_setReg_of_ne (s : State) {q r : Reg} (v : Byte) (h : q ≠ r) : (s.setReg r v).reg q = s.reg q := by
  cases q <;> cases r <;> first | rfl | exact absurd rfl h
@[simp] theorem State.memRead_setReg (s : State) (r : Reg) (v : Byte) (a : Addr) : (s.setReg r v).memRead a = s.memRead a := by
  simp [State.memRead]

/-! memWrite -/

@[simp] theorem State.memWrite_pc (s : State) (a : Addr) (v : Byte) : (s.memWrite a v).pc = s.pc := rfl
@[simp] theorem State.memWrite_cycles (s : State) (a : Addr) (v : Byte) : (s.memWrite a v).cycles = s.cycles := rfl
@[simp] theorem State.memWrite_run (s : State) (a : Addr) (v : Byte) : (s.memWrite a v).run = s.run := rfl
@[simp] theorem State.memWrite_out (s : State) (a : Addr) (v : Byte) : (s.memWrite a v).out = s.out := rfl
@[simp] theorem State.memWrite_diag (s : State) (a : Addr) (v : Byte) : (s.memWrite a v).diag = s.diag := rfl
@[simp] theorem State.memWrite_mem (s : State) (a : Addr) (v : Byte) : (s.memWrite a v).mem = Memory.write s.mem a.toNat v := rfl
@[simp] theorem State.reg_memWrite (s : State) (a : Addr) (v : Byte) (q : Reg) : (s.memWrite a v).reg q = s.reg q := by cases q <;> rfl

/-! complete -/

@[simp] theorem State.complete_pc (s : State) (m : Mnemonic) : (s.complete m).pc = s.pc + BitVec.ofNat 16 m.length := rfl
@[simp] theorem State.complete_cycles (s : State) (m : Mnemonic) : (s.complete m).cycles = s.cycles + BitVec.ofNat 64 m.cost := rfl
@[simp] theorem State.complete_run (s : State) (m : Mnemonic) : (s.complete m).run = s.run := rfl
@[simp] theorem State.complete_out (s : State) (m : Mnemonic) : (s.complete m).out = s.out := rfl
@[simp] theorem State.complete_diag (s : State) (m : Mnemonic) : (s.complete m).diag = s.diag := rfl
@[simp] theorem State.complete_mem (s : State) (m : Mnemonic) : (s.complete m).mem = s.mem := rfl
@[simp] theorem State.reg_complete (s : State) (m : Mnemonic) (q : Reg) : (s.complete m).reg q = s.reg q := by cases q <;> rfl
@[simp] theorem State.memRead_complete (s : State) (m : Mnemonic) (a : Addr) : (s.complete m).memRead a = s.memRead a := by
  simp [State.memRead]

/-! emitPrint -/

@[simp] theorem State.emitPrint_pc (s : State) (v : Byte) : (s.emitPrint v).pc = s.pc := rfl
@[simp] theorem State.emitPrint_cycles (s : State) (v : Byte) : (s.emitPrint v).cycles = s.cycles := rfl
@[simp] theorem State.emitPrint_run (s : State) (v : Byte) : (s.emitPrint v).run = s.run := rfl
@[simp] theorem State.emitPrint_out (s : State) (v : Byte) : (s.emitPrint v).out = s.out ++ [v] := rfl
@[simp] theorem State.emitPrint_diag (s : State) (v : Byte) : (s.emitPrint v).diag = s.diag := rfl
@[simp] theorem State.emitPrint_mem (s : State) (v : Byte) : (s.emitPrint v).mem = s.mem := rfl
@[simp] theorem State.reg_emitPrint (s : State) (v : Byte) (q : Reg) : (s.emitPrint v).reg q = s.reg q := by cases q <;> rfl
@[simp] theorem State.memRead_emitPrint (s : State) (v : Byte) (a : Addr) : (s.emitPrint v).memRead a = s.memRead a := by
  simp [State.memRead]

/-! warnInvalidDestination -/

@[simp] theorem State.warnInvalidDestination_pc (s : State) (b : Byte) : (s.warnInvalidDestination b).pc = s.pc := rfl
@[simp] theorem State.warnInvalidDestination_cycles (s : State) (b : Byte) : (s.warnInvalidDestination b).cycles = s.cycles := rfl
@[simp] theorem State.warnInvalidDestination_run (s : State) (b : Byte) : (s.warnInvalidDestination b).run = s.run := rfl
@[simp] theorem State.warnInvalidDestination_out (s : State) (b : Byte) : (s.warnInvalidDestination b).out = s.out := rfl
@[simp] theorem State.warnInvalidDestination_diag (s : State) (b : Byte) : (s.warnInvalidDestination b).diag = s.diag ++ [.warnInvalidDestination s.pc b] := rfl
@[simp] theorem State.warnInvalidDestination_mem (s : State) (b : Byte) : (s.warnInvalidDestination b).mem = s.mem := rfl
@[simp] theorem State.reg_warnInvalidDestination (s : State) (b : Byte) (q : Reg) : (s.warnInvalidDestination b).reg q = s.reg q := by cases q <;> rfl
@[simp] theorem State.memRead_warnInvalidDestination (s : State) (b : Byte) (a : Addr) : (s.warnInvalidDestination b).memRead a = s.memRead a := by
  simp [State.memRead]

/-! raise -/

@[simp] theorem State.raise_pc (s : State) (c : FaultCause) : (s.raise c).pc = s.pc := rfl
@[simp] theorem State.raise_cycles (s : State) (c : FaultCause) : (s.raise c).cycles = s.cycles := rfl
@[simp] theorem State.raise_run (s : State) (c : FaultCause) : (s.raise c).run = .faulted c := rfl
@[simp] theorem State.raise_out (s : State) (c : FaultCause) : (s.raise c).out = s.out := rfl
@[simp] theorem State.raise_diag (s : State) (c : FaultCause) : (s.raise c).diag = s.diag ++ [.faultReport c] := rfl
@[simp] theorem State.raise_mem (s : State) (c : FaultCause) : (s.raise c).mem = s.mem := rfl
@[simp] theorem State.reg_raise (s : State) (c : FaultCause) (q : Reg) : (s.raise c).reg q = s.reg q := by cases q <;> rfl
@[simp] theorem State.memRead_raise (s : State) (c : FaultCause) (a : Addr) : (s.raise c).memRead a = s.memRead a := by
  simp [State.memRead]

/-! haltOk -/

@[simp] theorem State.haltOk_pc (s : State) : s.haltOk.pc = s.pc := rfl
@[simp] theorem State.haltOk_cycles (s : State) : s.haltOk.cycles = s.cycles + 1#64 := rfl
@[simp] theorem State.haltOk_run (s : State) : s.haltOk.run = .haltedOk := rfl
@[simp] theorem State.haltOk_out (s : State) : s.haltOk.out = s.out := rfl
@[simp] theorem State.haltOk_diag (s : State) : s.haltOk.diag = s.diag ++ [.haltReport s.pc (s.cycles + 1#64)] := rfl
@[simp] theorem State.haltOk_mem (s : State) : s.haltOk.mem = s.mem := rfl
@[simp] theorem State.reg_haltOk (s : State) (q : Reg) : s.haltOk.reg q = s.reg q := by cases q <;> rfl
@[simp] theorem State.memRead_haltOk (s : State) (a : Addr) : s.haltOk.memRead a = s.memRead a := by
  simp [State.memRead]

/-! applyReset -/

@[simp] theorem State.applyReset_pc (s : State) : s.applyReset.pc = 0#16 := rfl
@[simp] theorem State.applyReset_cycles (s : State) : s.applyReset.cycles = 0#64 := rfl
@[simp] theorem State.applyReset_run (s : State) : s.applyReset.run = .running := rfl
@[simp] theorem State.applyReset_out (s : State) : s.applyReset.out = [] := rfl
@[simp] theorem State.applyReset_diag (s : State) : s.applyReset.diag = [] := rfl
@[simp] theorem State.applyReset_mem (s : State) : s.applyReset.mem = s.mem := rfl
@[simp] theorem State.reg_applyReset (s : State) (q : Reg) : s.applyReset.reg q = 0#8 := by cases q <;> rfl
@[simp] theorem State.memRead_applyReset (s : State) (a : Addr) : s.applyReset.memRead a = s.memRead a := by
  simp [State.memRead]

/-! resolve -/

@[simp] theorem State.resolve_reg (s : State) (r : Reg) : s.resolve (.reg r) = s.reg r := rfl
@[simp] theorem State.resolve_imm (s : State) (v : Byte) : s.resolve (.imm v) = v := rfl

/-- Everything the update of a destination can do (R54, R123). -/
theorem State.updateDest_cases (s : State) (d : Dest) (f : Byte → Byte) :
    (∃ r, d = .reg r ∧ s.updateDest d f = s.setReg r (f (s.reg r))) ∨
    (∃ b, d = .invalid b ∧ s.updateDest d f = s.warnInvalidDestination b) := by
  cases d with
  | reg r => exact .inl ⟨r, rfl, rfl⟩
  | invalid b => exact .inr ⟨b, rfl, rfl⟩

@[simp] theorem State.updateDest_reg (s : State) (r : Reg) (f : Byte → Byte) :
    s.updateDest (.reg r) f = s.setReg r (f (s.reg r)) := rfl
@[simp] theorem State.updateDest_invalid (s : State) (b : Byte) (f : Byte → Byte) :
    s.updateDest (.invalid b) f = s.warnInvalidDestination b := rfl

end Sys2Proof.Machine
end

