-- ==== Sys2Proof/Laws/Memory.lean ====
section
/-! SUPPORT. The laws of the memory operations: read after write, the canonical form is kept, and equal
memories are equal data. -/

namespace Sys2Proof.Machine

theorem Memory.lookup_write_self (m : Memory) (a : Nat) (v : Byte) :
    Memory.lookup (Memory.write m a v) a = some v := by
  induction m with
  | nil => simp [Memory.write, Memory.lookup]
  | cons c m ih =>
    obtain ⟨k, w⟩ := c
    simp only [Memory.write]
    split
    · simp [Memory.lookup]
    · split
      · simp [Memory.lookup]
      · simp_all [Memory.lookup]

theorem Memory.lookup_write_of_ne (m : Memory) {a b : Nat} (v : Byte) (h : b ≠ a) :
    Memory.lookup (Memory.write m a v) b = Memory.lookup m b := by
  induction m with
  | nil => simp [Memory.write, Memory.lookup, h]
  | cons c m ih =>
    obtain ⟨k, w⟩ := c
    simp only [Memory.write]
    split
    · simp [Memory.lookup, h]
    · split
      · subst k; simp [Memory.lookup, h]
      · simp [Memory.lookup, ih]

/-- A read of the cell just written. -/
theorem Memory.read_write_self (m : Memory) (a : Addr) (v : Byte) :
    Memory.read (Memory.write m a.toNat v) a = v := by
  simp [Memory.read, Memory.lookup_write_self]

/-- A read of any other cell. -/
theorem Memory.read_write_of_ne (m : Memory) {a b : Addr} (v : Byte) (h : b ≠ a) :
    Memory.read (Memory.write m a.toNat v) b = Memory.read m b := by
  have hn : b.toNat ≠ a.toNat := fun e => h (BitVec.eq_of_toNat_eq e)
  simp [Memory.read, Memory.lookup_write_of_ne _ _ hn]

theorem Memory.risesFrom_write (m : Memory) (low a : Nat) (v : Byte) (hl : low ≤ a) (ha : a < 65536)
    (h : Memory.risesFrom low m = true) : Memory.risesFrom low (Memory.write m a v) = true := by
  induction m generalizing low with
  | nil => simp [Memory.write, Memory.risesFrom, hl, ha]
  | cons c m ih =>
    obtain ⟨k, w⟩ := c
    simp only [Memory.risesFrom, Bool.and_eq_true, decide_eq_true_eq] at h
    obtain ⟨⟨h1, h2⟩, h3⟩ := h
    simp only [Memory.write]
    split
    · rename_i hak
      simp only [Memory.risesFrom, Bool.and_eq_true, decide_eq_true_eq]
      exact ⟨⟨hl, ha⟩, ⟨hak, h2⟩, h3⟩
    · split
      · subst k
        simp [Memory.risesFrom, hl, ha, h3]
      · simp only [Memory.risesFrom, Bool.and_eq_true, decide_eq_true_eq]
        exact ⟨⟨h1, h2⟩, ih (k + 1) (by omega) h3⟩

/-- A write keeps the canonical form. -/
theorem Memory.write_wf (m : Memory) (a : Addr) (v : Byte) (h : Memory.wf m = true) :
    Memory.wf (Memory.write m a.toNat v) = true :=
  Memory.risesFrom_write m 0 a.toNat v (Nat.zero_le _) a.isLt h

theorem State.memWrite_wf (s : State) (a : Addr) (v : Byte) (h : Memory.wf s.mem = true) :
    Memory.wf (s.memWrite a v).mem = true := Memory.write_wf s.mem a v h

theorem State.storeBytes_wf (bytes : List Byte) (s : State) (a : Addr) (h : Memory.wf s.mem = true) :
    Memory.wf (s.storeBytes a bytes).mem = true := by
  induction bytes generalizing s a with
  | nil => exact h
  | cons v vs ih => exact ih _ _ (State.memWrite_wf s a v h)

/-- Everything consecutive writes do, below the top of memory: the bytes stand where they were written, no
other cell and no other field changes (R33, R153). -/
theorem State.storeBytes_spec (bytes : List Byte) (s : State) (start : Nat) (h : start + bytes.length ≤ 65536) :
    (∀ k, k < bytes.length →
      (s.storeBytes (BitVec.ofNat 16 start) bytes).memRead (BitVec.ofNat 16 (start + k)) = bytes.getD k 0#8) ∧
    (∀ a : Addr, a.toNat < start ∨ start + bytes.length ≤ a.toNat →
      (s.storeBytes (BitVec.ofNat 16 start) bytes).memRead a = s.memRead a) ∧
    { s.storeBytes (BitVec.ofNat 16 start) bytes with mem := s.mem } = s := by
  induction bytes generalizing s start with
  | nil => exact ⟨by simp, fun a _ => rfl, rfl⟩
  | cons v vs ih =>
    simp only [List.length_cons] at h
    obtain ⟨i1, i2, i3⟩ := ih (s.memWrite (BitVec.ofNat 16 start) v) (start + 1) (by omega)
    have e : BitVec.ofNat 16 start + 1#16 = BitVec.ofNat 16 (start + 1) := by simp [BitVec.ofNat_add]
    simp only [State.storeBytes, e]
    refine ⟨fun k hk => ?_, fun a ha => ?_, congrArg (fun u : State => { u with mem := s.mem }) i3⟩
    · cases k with
      | zero =>
        simp only [Nat.add_zero]
        rw [i2 _ (by left; simp; omega)]
        simpa [State.memRead] using Memory.read_write_self s.mem (BitVec.ofNat 16 start) v
      | succ k =>
        have := i1 k (by simpa using hk)
        rw [show start + 1 + k = start + (k + 1) by omega] at this
        rw [this]
        simp
    · simp only [List.length_cons] at ha
      rw [i2 a (by omega)]
      have hne : a ≠ BitVec.ofNat 16 start := by
        rintro rfl
        simp at ha
        omega
      exact Memory.read_write_of_ne _ _ hne

/-- The memory after reset has the canonical form. -/
theorem State.reset_wf : Memory.wf State.reset.mem = true := rfl

theorem Memory.lookup_of_lt (m : Memory) (low a : Nat) (h : Memory.risesFrom low m = true) (ha : a < low) :
    Memory.lookup m a = none := by
  induction m generalizing low with
  | nil => rfl
  | cons c m ih =>
    obtain ⟨k, w⟩ := c
    simp only [Memory.risesFrom, Bool.and_eq_true, decide_eq_true_eq] at h
    have : a ≠ k := by omega
    simp only [Memory.lookup, this, if_false]
    exact ih (k + 1) h.2 (by omega)

theorem Memory.eq_of_lookup_eq (m m' : Memory) (low : Nat) (h : Memory.risesFrom low m = true)
    (h' : Memory.risesFrom low m' = true) (e : ∀ a, Memory.lookup m a = Memory.lookup m' a) : m = m' := by
  induction m generalizing m' low with
  | nil =>
    cases m' with
    | nil => rfl
    | cons c m' => obtain ⟨k, w⟩ := c; simpa [Memory.lookup] using e k
  | cons c m ih =>
    obtain ⟨k, w⟩ := c
    cases m' with
    | nil => simpa [Memory.lookup] using e k
    | cons c' m' =>
      obtain ⟨k', w'⟩ := c'
      simp only [Memory.risesFrom, Bool.and_eq_true, decide_eq_true_eq] at h h'
      have hk : k = k' := by
        rcases Nat.lt_trichotomy k k' with hlt | heq | hgt
        · have := e k
          have hn : k ≠ k' := by omega
          simp [Memory.lookup, hn, Memory.lookup_of_lt m' (k' + 1) k h'.2 (by omega)] at this
        · exact heq
        · have := e k'
          have hn : k' ≠ k := by omega
          simp [Memory.lookup, hn, Memory.lookup_of_lt m (k + 1) k' h.2 (by omega)] at this
      subst hk
      have hw : w = w' := by simpa [Memory.lookup] using e k
      subst hw
      have : m = m' := by
        refine ih m' (k + 1) h.2 h'.2 fun a => ?_
        by_cases hak : a = k
        · rw [Memory.lookup_of_lt m (k + 1) a h.2 (by omega), Memory.lookup_of_lt m' (k + 1) a h'.2 (by omega)]
        · simpa [Memory.lookup, hak] using e a
      rw [this]

/-- Equal memories are equal data: two canonical memories that list the same cells are the same list. -/
theorem Memory.ext_of_wf (m m' : Memory) (h : Memory.wf m = true) (h' : Memory.wf m' = true)
    (e : ∀ a, Memory.lookup m a = Memory.lookup m' a) : m = m' :=
  Memory.eq_of_lookup_eq m m' 0 h h' e

end Sys2Proof.Machine
end

