-- ==== Sys2Proof/Laws/PerInstr.lean ====
section
/-! SUPPORT. Statements made per instruction, one lemma a constructor. -/

namespace Sys2Proof.Laws

/-- The encoding of an instruction is as long as its row says: 1 + arity (30_encoding.md R52). -/
def EncodedLength.Statement (i : Instr) : Prop := (encode i).length = i.mnemonic.length

theorem EncodedLength.mov (d : Dest) (s : Src) : EncodedLength.Statement (.mov d s) := rfl
theorem EncodedLength.div (d : Dest) (s : Src) : EncodedLength.Statement (.div d s) := rfl
theorem EncodedLength.mul (d : Dest) (s : Src) : EncodedLength.Statement (.mul d s) := rfl
theorem EncodedLength.add (d : Dest) (s : Src) : EncodedLength.Statement (.add d s) := rfl
theorem EncodedLength.sub (d : Dest) (s : Src) : EncodedLength.Statement (.sub d s) := rfl
theorem EncodedLength.and (d : Dest) (s : Src) : EncodedLength.Statement (.and d s) := rfl
theorem EncodedLength.or (d : Dest) (s : Src) : EncodedLength.Statement (.or d s) := rfl
theorem EncodedLength.xor (d : Dest) (s : Src) : EncodedLength.Statement (.xor d s) := rfl
theorem EncodedLength.not (d : Dest) : EncodedLength.Statement (.not d) := rfl
theorem EncodedLength.nand (d : Dest) (s : Src) : EncodedLength.Statement (.nand d s) := rfl
theorem EncodedLength.nor (d : Dest) (s : Src) : EncodedLength.Statement (.nor d s) := rfl
theorem EncodedLength.print (s : Src) : EncodedLength.Statement (.print s) := rfl
theorem EncodedLength.halt : EncodedLength.Statement (.halt) := rfl

end Sys2Proof.Laws
end

