-- ==== Sys2Proof/Laws/Step.lean ====
section
/-! SUPPORT. What an instruction and a step can do, said once: the later proofs cite these and unfold
neither `exec` nor `step`. -/

namespace Sys2Proof.Machine

/-- Everything an instruction can do: complete with an update of a destination, complete with a printed
value, halt, take the division fault, or complete with the warning in place of that fault. -/
theorem exec_cases (i : Instr) (s : State) :
    (∃ d f, exec i s = .next ((s.updateDest d f).complete i.mnemonic) ∧ (i.wf = true → d.wf = true) ∧
      i.mnemonic ≠ .print ∧ i.mnemonic ≠ .halt) ∨
    (∃ src, i = .print src ∧ exec i s = .next ((s.emitPrint (s.resolve src)).complete .print)) ∨
    (i = .halt ∧ exec i s = .next s.haltOk) ∨
    (i.mnemonic = .div ∧ exec i s = .next (s.raise (.divideByZero s.pc))) := by
  cases i with
  | mov d src => exact .inl ⟨d, _, rfl, fun h => by simp_all [Instr.wf], nofun, nofun⟩
  | add d src => exact .inl ⟨d, _, rfl, fun h => by simp_all [Instr.wf], nofun, nofun⟩
  | sub d src => exact .inl ⟨d, _, rfl, fun h => by simp_all [Instr.wf], nofun, nofun⟩
  | mul d src => exact .inl ⟨d, _, rfl, fun h => by simp_all [Instr.wf], nofun, nofun⟩
  | and d src => exact .inl ⟨d, _, rfl, fun h => by simp_all [Instr.wf], nofun, nofun⟩
  | or d src => exact .inl ⟨d, _, rfl, fun h => by simp_all [Instr.wf], nofun, nofun⟩
  | xor d src => exact .inl ⟨d, _, rfl, fun h => by simp_all [Instr.wf], nofun, nofun⟩
  | nand d src => exact .inl ⟨d, _, rfl, fun h => by simp_all [Instr.wf], nofun, nofun⟩
  | nor d src => exact .inl ⟨d, _, rfl, fun h => by simp_all [Instr.wf], nofun, nofun⟩
  | not d => exact .inl ⟨d, _, rfl, fun h => by simp_all [Instr.wf], nofun, nofun⟩
  | print src => exact .inr (.inl ⟨src, rfl, rfl⟩)
  | halt => exact .inr (.inr (.inl ⟨rfl, rfl⟩))
  | div d src =>
    by_cases h0 : s.resolve src = 0#8
    · cases d with
      | reg r => exact .inr (.inr (.inr ⟨rfl, by simp [exec, execDiv, h0, divByZero]⟩))
      | invalid b =>
        cases hc : Config.divZeroWithInvalidDest with
        | fault => exact .inr (.inr (.inr ⟨rfl, by simp [exec, execDiv, h0, divByZero, hc]⟩))
        | warn =>
          refine .inl ⟨.invalid b, id, ?_, fun h => by simp_all [Instr.wf], nofun, nofun⟩
          simp [exec, execDiv, h0, divByZero, hc, Instr.mnemonic]
    · refine .inl ⟨d, fun a => aluDiv a (s.resolve src), ?_, fun h => by simp_all [Instr.wf], nofun, nofun⟩
      simp [exec, execDiv, h0, Instr.mnemonic]

/-- What a fetch can find. -/
theorem State.fetch_cases (s : State) :
    (Mnemonic.ofOpcode (s.fetchByte 0) = none ∧ s.fetch = .unknown (s.fetchByte 0)) ∨
    ∃ m, Mnemonic.ofOpcode (s.fetchByte 0) = some m ∧ s.fetch = .instr (m.instr (s.fetchByte 1) (s.fetchByte 2)) := by
  unfold State.fetch
  split
  · exact .inl ⟨decodeFrom_eq_none.1 ‹_›, rfl⟩
  · obtain ⟨m, hm, rfl⟩ := decodeFrom_eq_some ‹_›
    exact .inr ⟨m, hm, rfl⟩

/-- Everything a step that answers a next state did: the machine was Running, and it took the decode
fault or ran the fetched instruction. -/
theorem step_next_cases {s t : State} (h : step s = .next t) :
    s.run = .running ∧
    ((Mnemonic.ofOpcode (s.fetchByte 0) = none ∧ t = s.raise (.unknownOpcode (s.fetchByte 0) s.pc)) ∨
     ∃ m, Mnemonic.ofOpcode (s.fetchByte 0) = some m ∧
       exec (m.instr (s.fetchByte 1) (s.fetchByte 2)) s = .next t) := by
  unfold step at h
  split at h
  · cases h
  · cases h
  · refine ⟨‹_›, ?_⟩
    rcases s.fetch_cases with ⟨hm, hf⟩ | ⟨m, hm, hf⟩
    · rw [hf] at h
      cases h
      exact .inl ⟨hm, rfl⟩
    · rw [hf] at h
      exact .inr ⟨m, hm, h⟩

@[simp] theorem State.fetchByte_zero (s : State) : s.fetchByte 0 = s.memRead s.pc := by
  simp [State.fetchByte, State.fetchAddr]

end Sys2Proof.Machine
end

