-- ==== Sys2Proof/Tests/Slice0.lean ====
section
/-! SUPPORT. Tests: the WellFormed smoke, decoding of words written out from 30_encoding.md R51 and R60,
one-step vectors of 95_test_vectors.md (their ids stand in the names), and a witness for the hypotheses
of every statement that has some. -/

namespace Sys2Proof.Tests
open Sys2Proof Sys2Proof.Machine

/-! WellFormed refuses what no operand byte stands for (R53, R54). -/

theorem test_wf_refuses_small_immediate : (Src.imm 2#8).wf = false := by decide
theorem test_wf_refuses_small_invalid_destination : (Dest.invalid 2#8).wf = false := by decide
theorem test_wf_takes_three : (Src.imm 3#8).wf = true ∧ (Dest.invalid 3#8).wf = true := by decide
theorem test_wf_mov : (Instr.mov (.invalid 1#8) (.reg .A)).wf = false ∧ (Instr.mov (.reg .A) (.imm 0#8)).wf = false := by decide
theorem test_wf_div : (Instr.div (.invalid 1#8) (.reg .A)).wf = false ∧ (Instr.div (.reg .A) (.imm 0#8)).wf = false := by decide
theorem test_wf_mul : (Instr.mul (.invalid 1#8) (.reg .A)).wf = false ∧ (Instr.mul (.reg .A) (.imm 0#8)).wf = false := by decide
theorem test_wf_add : (Instr.add (.invalid 1#8) (.reg .A)).wf = false ∧ (Instr.add (.reg .A) (.imm 0#8)).wf = false := by decide
theorem test_wf_sub : (Instr.sub (.invalid 1#8) (.reg .A)).wf = false ∧ (Instr.sub (.reg .A) (.imm 0#8)).wf = false := by decide
theorem test_wf_and : (Instr.and (.invalid 1#8) (.reg .A)).wf = false ∧ (Instr.and (.reg .A) (.imm 0#8)).wf = false := by decide
theorem test_wf_or : (Instr.or (.invalid 1#8) (.reg .A)).wf = false ∧ (Instr.or (.reg .A) (.imm 0#8)).wf = false := by decide
theorem test_wf_xor : (Instr.xor (.invalid 1#8) (.reg .A)).wf = false ∧ (Instr.xor (.reg .A) (.imm 0#8)).wf = false := by decide
theorem test_wf_nand : (Instr.nand (.invalid 1#8) (.reg .A)).wf = false ∧ (Instr.nand (.reg .A) (.imm 0#8)).wf = false := by decide
theorem test_wf_nor : (Instr.nor (.invalid 1#8) (.reg .A)).wf = false ∧ (Instr.nor (.reg .A) (.imm 0#8)).wf = false := by decide
theorem test_wf_not : (Instr.not (.invalid 0#8)).wf = false := by decide
theorem test_wf_print : (Instr.print (.imm 1#8)).wf = false := by decide

/-! Decoding, bit by bit: the opcode byte leftmost bit first, then destination, then source. -/

theorem test_decode_mov : decode [0b00000001#8, 0b00000001#8, 0b00101010#8] = .ok (.mov (.reg .B) (.imm 42#8)) [] := by decide
theorem test_decode_div : decode [0b00001000#8, 0b00000101#8, 0b00000011#8] = .ok (.div (.invalid 5#8) (.imm 3#8)) [] := by decide
theorem test_decode_mul : decode [0b00001001#8, 0b00000001#8, 0b00000010#8] = .ok (.mul (.reg .B) (.reg .C)) [] := by decide
theorem test_decode_add : decode [0b00010000#8, 0b00000010#8, 0b00000111#8] = .ok (.add (.reg .C) (.imm 7#8)) [] := by decide
theorem test_decode_sub : decode [0b00010001#8, 0b11001000#8, 0b00000000#8] = .ok (.sub (.invalid 200#8) (.reg .A)) [] := by decide
theorem test_decode_and : decode [0b00010010#8, 0b00000010#8, 0b00000001#8] = .ok (.and (.reg .C) (.reg .B)) [] := by decide
theorem test_decode_or : decode [0b00010011#8, 0b10000000#8, 0b00000010#8] = .ok (.or (.invalid 0x80#8) (.reg .C)) [] := by decide
theorem test_decode_xor : decode [0b00010100#8, 0b00000001#8, 0b11111111#8] = .ok (.xor (.reg .B) (.imm 0xFF#8)) [] := by decide
theorem test_decode_not : decode [0b00010101#8, 0b00000010#8, 0x99#8] = .ok (.not (.reg .C)) [0x99#8] := by decide
theorem test_decode_nand : decode [0b00010110#8, 0b00000110#8, 0b00000000#8] = .ok (.nand (.invalid 6#8) (.reg .A)) [] := by decide
theorem test_decode_nor : decode [0b00010111#8, 0b00000001#8, 0b00000010#8] = .ok (.nor (.reg .B) (.reg .C)) [] := by decide
theorem test_decode_print : decode [0b01000000#8, 0b00000111#8] = .ok (.print (.imm 7#8)) [] := by decide
theorem test_decode_halt : decode [0b11111111#8, 0x01#8] = .ok .halt [0x01#8] := by decide
theorem test_decode_truncated : decode [0x15#8] = .reject (.truncated 0x15#8) ∧ decode [] = .reject .noBytes := by decide
theorem test_decode_table_word : decodeTableWord 24 0x3C0011 = some (.sub (.reg .A) (.imm 60#8)) ∧ decodeTableWord 8 0x00 = none := by decide

/-- R62: the edges of each range of illegal opcode bytes. -/
theorem test_illegal_opcode_edges :
    [0x00#8, 0x02#8, 0x07#8, 0x0A#8, 0x0F#8, 0x18#8, 0x3F#8, 0x41#8, 0xFE#8].all
      (fun op => decode [op, 3#8, 3#8] == .reject (.unknownOpcode op)) = true := by decide

/-! One-step vectors of 95_test_vectors.md. -/

/-- A running machine with these registers, pc and bytes from pc on, and 100 cycles. -/
def start (a b c : Byte) (pc : Addr) (bytes : List Byte) : State :=
  State.storeBytes { State.reset with A := a, B := b, C := c, pc := pc, cycles := 100#64 } pc bytes

/-- A, B, C, pc and cycles after one step. -/
def numbers (s : State) : Option (List Nat) :=
  match step s with
  | .next t => some [t.A.toNat, t.B.toNat, t.C.toNat, t.pc.toNat, t.cycles.toNat]
  | _ => none

/-- Both logs and the run state after one step. -/
def events (s : State) : Option (List Byte × List DiagEvent × RunState) :=
  match step s with
  | .next t => some (t.out, t.diag, t.run)
  | _ => none

theorem test_mov_M2 : numbers (start 0x07#8 0x09#8 0x0B#8 0x0100#16 [0x01#8, 0x01#8, 0x00#8]) = some [0x07, 0x07, 0x0B, 0x0103, 103] := by decide
theorem test_add_A3 : numbers (start 0xFF#8 0x00#8 0x00#8 0x0100#16 [0x10#8, 0x00#8, 0x00#8]) = some [0xFE, 0x00, 0x00, 0x0103, 103] := by decide
theorem test_sub_A12 : numbers (start 0x0A#8 0x1E#8 0x00#8 0x0100#16 [0x11#8, 0x01#8, 0x00#8]) = some [0x0A, 0x14, 0x00, 0x0103, 103] := by decide
theorem test_sub_A11 : numbers (start 0x00#8 0x00#8 0x00#8 0x0100#16 [0x11#8, 0x02#8, 0x03#8]) = some [0x00, 0x00, 0xFD, 0x0103, 103] := by decide
theorem test_mul_A14 : numbers (start 0x2C#8 0x07#8 0x00#8 0x0100#16 [0x09#8, 0x00#8, 0x01#8]) = some [0x34, 0x07, 0x00, 0x0103, 105] := by decide
theorem test_div_A21 : numbers (start 0xF8#8 0x07#8 0x00#8 0x0100#16 [0x08#8, 0x00#8, 0x01#8]) = some [0x23, 0x07, 0x00, 0x0103, 110] := by decide
theorem test_and_L1 : numbers (start 0x00#8 0x3C#8 0xF0#8 0x0100#16 [0x12#8, 0x02#8, 0x01#8]) = some [0x00, 0x3C, 0x30, 0x0103, 101] := by decide
theorem test_or_L6 : numbers (start 0xF0#8 0x3C#8 0x00#8 0x0100#16 [0x13#8, 0x00#8, 0x01#8]) = some [0xFC, 0x3C, 0x00, 0x0103, 101] := by decide
theorem test_xor_L12 : numbers (start 0xAA#8 0x00#8 0x55#8 0x0100#16 [0x14#8, 0x00#8, 0x02#8]) = some [0xFF, 0x00, 0x55, 0x0103, 101] := by decide
theorem test_not_L14 : numbers (start 0x00#8 0x00#8 0x30#8 0x0100#16 [0x15#8, 0x02#8]) = some [0x00, 0x00, 0xCF, 0x0102, 101] := by decide
theorem test_nand_L18 : numbers (start 0xFC#8 0xC3#8 0x00#8 0x0100#16 [0x16#8, 0x00#8, 0x01#8]) = some [0x3F, 0xC3, 0x00, 0x0103, 102] := by decide
theorem test_nor_L23 : numbers (start 0x00#8 0xC3#8 0xCF#8 0x0100#16 [0x17#8, 0x01#8, 0x02#8]) = some [0x00, 0x30, 0xCF, 0x0103, 102] := by decide
theorem test_wrap_X12 : numbers (start 0x00#8 0x00#8 0x00#8 0xFFFF#16 [0x01#8, 0x01#8, 0x2A#8]) = some [0x00, 0x2A, 0x00, 0x0002, 103] := by decide
theorem test_wrap_X13 : numbers (start 0x01#8 0x02#8 0x09#8 0xFFFE#16 [0x10#8, 0x02#8, 0x07#8]) = some [0x01, 0x02, 0x10, 0x0001, 103] := by decide
theorem test_mov_M8 : events (start 0x07#8 0x09#8 0x0B#8 0x0100#16 [0x01#8, 0x03#8, 0x00#8]) = some ([], [.warnInvalidDestination 0x0100#16 0x03#8], .running) := by decide
theorem test_div_A28 : events (start 0x0A#8 0x00#8 0x00#8 0x0100#16 [0x08#8, 0x00#8, 0x01#8]) = some ([], [.faultReport (.divideByZero 0x0100#16)], .faulted (.divideByZero 0x0100#16)) := by decide
theorem test_not_L17 : events (start 0x01#8 0x02#8 0x03#8 0x0100#16 [0x15#8, 0x09#8]) = some ([], [.warnInvalidDestination 0x0100#16 0x09#8], .running) := by decide
theorem test_print_O4 : events (start 0x00#8 0x00#8 0xF8#8 0x0100#16 [0x40#8, 0x02#8]) = some ([248#8], [], .running) := by decide
theorem test_print_O2 : events (start 0x08#8 0x00#8 0x00#8 0x0100#16 [0x40#8, 0x07#8]) = some ([7#8], [], .running) := by decide
theorem test_halt_O8 : events (start 0x01#8 0x02#8 0x03#8 0xFFFF#16 [0xFF#8]) = some ([], [.haltReport 0xFFFF#16 101#64], .haltedOk) := by decide
theorem test_illegal_X2 : events (start 0x01#8 0x02#8 0x03#8 0x0100#16 [0x02#8]) = some ([], [.faultReport (.unknownOpcode 0x02#8 0x0100#16)], .faulted (.unknownOpcode 0x02#8 0x0100#16)) := by decide
theorem test_halt_numbers_O7 : numbers (start 0x08#8 0x03#8 0x00#8 0x000B#16 [0xFF#8]) = some [8, 3, 0, 11, 101] := by decide
theorem test_fault_numbers_A29 : numbers (start 0x00#8 0x05#8 0x05#8 0x0100#16 [0x08#8, 0x00#8, 0x00#8]) = some [0, 5, 5, 0x0100, 100] := by decide

/-- A31 and A32: `div 5,B` with B = 0, under each value of DIV_ZERO_WITH_INVALID_DEST. -/
theorem test_div_A31_A32 (s : State) (h : s.B = 0#8) :
    exec (.div (.invalid 5#8) (.reg .B)) s = .next
      (match Config.divZeroWithInvalidDest with
       | .fault => s.raise (.divideByZero s.pc)
       | .warn => (s.warnInvalidDestination 5#8).complete .div) := by
  have e : exec (.div (.invalid 5#8) (.reg .B)) s = .next (divByZero (.invalid 5#8) s) := by
    simp [exec, execDiv, State.resolve, State.reg, h]
  rw [e]
  unfold divByZero
  cases Config.divZeroWithInvalidDest <;> rfl

/-- A step with a table word placed runs it from reset (log entry 13). -/
theorem test_with_fetch_word : numbers (State.reset.withFetchWord 24 0x050001) = some [5, 0, 0, 3, 3] := by decide
theorem test_step_after_halt : step { State.reset with run := .haltedOk } = .fault .endedOk := by rfl
theorem test_reset_exit_status : State.reset.exitStatus = none := by decide

/-! The loader and the printed text. -/

/-- R16, vector O5: the printed line of 0 is the single digit `0` and 0x0A. -/
theorem test_print_line_zero : printLine 0#8 = [0x30#8, 0x0A#8] := by decide

/-- S7: the printed line of 8 is `8` and 0x0A. -/
theorem test_print_line : printLine 8#8 = [0x38#8, 0x0A#8] ∧ printLine 248#8 = [0x32#8, 0x34#8, 0x38#8, 0x0A#8] := by decide
theorem test_assemble_case_and_comments : assemble ("MOV a 0x1F // x\n/* y */ Not\tC /* z".toList.map ascii) = .image [0x01#8, 0x00#8, 0x1F#8, 0x15#8, 0x02#8] := by decide
theorem test_assemble_octal_and_range : assemble ("print 017".toList.map ascii) = .image [0x40#8, 15#8] ∧ assemble ("print 256".toList.map ascii) = .failed := by decide
theorem test_assemble_failures : assemble ("jmp 5".toList.map ascii) = .failed ∧ assemble ("add A".toList.map ascii) = .failed ∧ assemble ("add A,x".toList.map ascii) = .failed := by decide
theorem test_assemble_open_points : assemble ("print -5".toList.map ascii) = .notCovered ∧ assemble ("add A,,B".toList.map ascii) = .notCovered ∧ assemble ("print 08".toList.map ascii) = .notCovered := by decide
/-- A token that fails on every reading fails the text, after an open point too (R74, R154). -/
theorem test_assemble_fails_past_open_points : assemble ("print -5 jmp 5".toList.map ascii) = .failed ∧ assemble [0x09#8, 0x2C#8, 0x05#8, 0xFF#8] = .failed ∧ assemble ("print +300 halt".toList.map ascii) = .failed := by decide
theorem test_load_unknown_token_after_comma : load 0 (some [0x2C#8, 0xFF#8]) State.reset = .loaded (State.reset.storeBytes 0#16 [0x2C#8, 0xFF#8]) 2 true := by decide
theorem test_load_outside_memory : load 65536 (some [0xFF#8]) State.reset = .failed := by decide

/-! Witnesses: for each statement with hypotheses, concrete data that meets all of them. -/

/-- The state most witnesses use: `mov A,5` at 0. -/
def movState : State := start 1#8 2#8 3#8 0#16 [0x01#8, 0x00#8, 0x05#8]

/-- A `halt` at 0. -/
def haltState : State := start 1#8 2#8 3#8 0#16 [0xFF#8]

/-- A `div A,B` at 0 with B = 0. -/
def divZeroState : State := start 1#8 0#8 3#8 0#16 [0x08#8, 0x00#8, 0x01#8]

/-- An illegal opcode byte at 0. -/
def illegalState : State := start 1#8 2#8 3#8 0#16 [0x00#8]

theorem witness_DecodeOfEncode : (Instr.mov (.invalid 3#8) (.imm 255#8)).wf = true := by decide
theorem witness_EncodeOfDecode : decode [0x15#8, 0x00#8, 0x07#8] = .ok (.not (.reg .A)) [0x07#8] := by decide
theorem witness_SourceByteResolution : (0#8).toNat = 0 ∧ (1#8).toNat = 1 ∧ (2#8).toNat = 2 ∧ 3 ≤ (3#8).toNat ∧ 3 ≤ (255#8).toNat := by decide
theorem witness_DestinationByteDecoding : (0#8).toNat = 0 ∧ (1#8).toNat = 1 ∧ (2#8).toNat = 2 ∧ 3 ≤ (3#8).toNat ∧ 3 ≤ (255#8).toNat := by decide
theorem witness_DivWritesQuotient : movState.resolve (.reg .B) ≠ 0#8 := by decide
theorem witness_DivByZeroFaults : divZeroState.resolve (.reg .B) = 0#8 := by decide
theorem witness_DivByZeroWithInvalidDestination : divZeroState.resolve (.reg .B) = 0#8 := by decide
theorem witness_DivByImmediateCompletes : (Src.imm 3#8).wf = true := by decide
theorem witness_LogicWorksBitByBit : 0 < 8 ∧ 7 < 8 := by decide
theorem witness_AtMostOneRegisterChanges : exec (.print (.reg .A)) movState = .next ((movState.emitPrint 1#8).complete .print) := by rfl
theorem witness_NoInstructionWritesMemory : exec .halt haltState = .next haltState.haltOk := by rfl
theorem witness_MemoryIsConstantOverRuns : Sys2Proof.core.run 1 haltState = .next haltState.haltOk := by rfl
theorem witness_LogsOnlyGrowOverRuns : Sys2Proof.core.run 1 divZeroState = .next (divZeroState.raise (.divideByZero 0#16)) := by rfl
theorem witness_StepRunsDecodedInstruction :
    movState.run = .running ∧
    decode [movState.memRead movState.pc, movState.memRead (movState.pc + 1#16), movState.memRead (movState.pc + 2#16)] =
      .ok (.mov (.reg .A) (.imm 5#8)) [] ∧
    (Instr.mov (.reg .A) (.imm 5#8)).wf = true := by decide
theorem witness_StepRunsEncodedInstruction :
    movState.run = .running ∧ (Instr.mov (.reg .A) (.imm 5#8)).wf = true ∧
    ∀ k, k < (encode (.mov (.reg .A) (.imm 5#8))).length →
      movState.memRead (movState.pc + BitVec.ofNat 16 k) = (encode (.mov (.reg .A) (.imm 5#8))).getD k 0#8 := by decide
theorem witness_IllegalOpcodeFaults : illegalState.run = .running ∧ illegalOpcode (illegalState.memRead illegalState.pc) := by
  refine ⟨rfl, .inl ?_⟩; decide
theorem witness_StepExistsExactlyWhileRunning :
    movState.run = .running ∧ haltState.haltOk.run = .haltedOk ∧
    (divZeroState.raise (.divideByZero 0#16)).run = .faulted (.divideByZero 0#16) := by decide
theorem witness_ProgramCounterAfterStep :
    step movState = .next ((movState.setReg .A 5#8).complete .mov) ∧ ((movState.setReg .A 5#8).complete .mov).run = .running ∧
    step haltState = .next haltState.haltOk ∧ haltState.haltOk.run ≠ .running := by
  refine ⟨rfl, rfl, rfl, ?_⟩; decide
theorem witness_CyclesAfterStep :
    step movState = .next ((movState.setReg .A 5#8).complete .mov) ∧
    step divZeroState = .next (divZeroState.raise (.divideByZero 0#16)) ∧
    (divZeroState.raise (.divideByZero 0#16)).run = .faulted (.divideByZero 0#16) := ⟨rfl, rfl, rfl⟩
theorem witness_RunStateTransitions :
    step illegalState = .next (illegalState.raise (.unknownOpcode 0#8 0#16)) ∧
    (illegalState.raise (.unknownOpcode 0#8 0#16)).run = .faulted (.unknownOpcode 0#8 0#16) ∧
    step divZeroState = .next (divZeroState.raise (.divideByZero 0#16)) := ⟨rfl, rfl, rfl⟩
theorem witness_FaultsArePrecise :
    step illegalState = .next (illegalState.raise (.unknownOpcode 0#8 0#16)) ∧
    (illegalState.raise (.unknownOpcode 0#8 0#16)).run = .faulted (.unknownOpcode 0#8 0#16) := ⟨rfl, rfl⟩
theorem witness_AtMostOneEventPerStep : step haltState = .next haltState.haltOk := by rfl
theorem witness_FetchAddressesOfStep :
    0 < movState.fetchAddrs.length ∧ 2 < movState.fetchAddrs.length ∧ movState.fetch = .instr (.mov (.reg .A) (.imm 5#8)) ∧
    illegalState.memRead illegalState.pc = 0x00#8 := by decide
theorem witness_StepReadsOnlyFetchedBytes :
    (∀ a ∈ haltState.fetchAddrs, Memory.read [(0, 0xFF#8), (7, 9#8)] a = haltState.memRead a) ∧
    step haltState = .next haltState.haltOk := by
  have hf : haltState.fetchAddrs = [0#16] := by decide
  refine ⟨fun a ha => ?_, rfl⟩
  rw [hf, List.mem_singleton] at ha
  subst ha
  decide
theorem witness_StepKeepsInvariant : haltState.Inv ∧ step haltState = .next haltState.haltOk :=
  ⟨⟨rfl, ⟨[], rfl, by simp⟩, trivial⟩, rfl⟩
theorem witness_WriteChangesOneCell : (1#16 : Addr) ≠ 0#16 := by decide
theorem witness_InstructionTextAssembles : (Instr.nor (.invalid 3#8) (.imm 3#8)).wf = true := by decide
theorem witness_ProgramTextAssembles : ∀ i ∈ [Instr.mov (.reg .A) (.imm 5#8), .halt], i.wf = true := by decide
theorem witness_LoadWritesImage_raw : load 65534 (some [0xFF#8, 1#8, 2#8]) State.reset = .loaded (State.reset.storeBytes 65534#16 [0xFF#8, 1#8]) 2 true := by decide
theorem witness_LoadWritesImage_text : load 0 (some (['h', 'a', 'l', 't'].map ascii)) State.reset = .loaded (State.reset.storeBytes 0#16 [0xFF#8]) 1 false := by decide
theorem witness_LoadFailures :
    65536 ≤ 65536 ∧ 65535 < 65536 ∧ assemble (['h', 'a', 'l', 't'].map ascii) = .image [0xFF#8] ∧ assemble [0xFF#8] = .failed := by decide
/-- An assembled image over capacity: two bytes where one fits. -/
theorem witness_LoadFailures_overflow :
    65535 < 65536 ∧ assemble ("print 5".toList.map ascii) = .image [0x40#8, 5#8] ∧ 65536 - 65535 < [0x40#8, 5#8].length ∧
    load 65535 (some ("print 5".toList.map ascii)) State.reset = .failed := by decide
/-- One state per opcode byte. -/
theorem witness_FieldPositions :
    [0x01#8, 0x08#8, 0x09#8, 0x10#8, 0x11#8, 0x12#8, 0x13#8, 0x14#8, 0x15#8, 0x16#8, 0x17#8, 0x40#8, 0xFF#8].all
      (fun op => (start 1#8 2#8 3#8 0xFFFF#16 [op, 0#8, 3#8]).memRead 0xFFFF#16 == op) = true := by decide
theorem witness_UnknownFirstTokenLoadsRaw :
    65535 < 65536 ∧ lex .text [] [0x2C#8, 0xFF#8] = List.replicate 1 .comma ++ .word [0xFF#8] :: [] ∧ mnemonicOf [0xFF#8] = none := by decide
theorem witness_TextAndBytecodeLoadAlike :
    (∀ i ∈ [Instr.mov (.reg .A) (.imm 5#8)], i.wf = true) ∧ 65533 < 65536 ∧
    ([Instr.mov (.reg .A) (.imm 5#8)].flatMap encode).length ≤ 65536 - 65533 ∧
    assemble ([Instr.mov (.reg .A) (.imm 5#8)].flatMap encode) = .failed := by decide

end Sys2Proof.Tests
end

section
/-! PROOFS. The laws the statements of 10_state.md rest on: the fields after the update of a destination,
the opcode table as a relation, and what one step can leave. -/

namespace Sys2Proof

/-! The opcode table. -/

/-- A byte selects a row exactly where it is the row's opcode (30_encoding.md R60). -/
theorem Mnemonic.ofOpcode_eq_some {op : Byte} {m : Mnemonic} : Mnemonic.ofOpcode op = some m ↔ m.opcode = op := by
  constructor
  · exact Mnemonic.opcode_of_ofOpcode
  · rintro rfl
    exact Mnemonic.ofOpcode_opcode m

/-- The same, of the byte's value. -/
theorem Mnemonic.ofOpcode_eq_some_iff_toNat {op : Byte} {m : Mnemonic} :
    Mnemonic.ofOpcode op = some m ↔ op.toNat = m.opcode.toNat := by
  rw [Mnemonic.ofOpcode_eq_some, BitVec.toNat_inj, eq_comm]

/-- The bytes that select no row are the five ranges of 30_encoding.md R62. -/
theorem Mnemonic.ofOpcode_eq_none {op : Byte} : Mnemonic.ofOpcode op = none ↔ Machine.illegalOpcode op := by
  have hop := op.isLt
  simp only [Mnemonic.ofOpcode, List.find?_eq_none, Mnemonic.table, List.forall_mem_cons, List.not_mem_nil,
    beq_iff_eq, Mnemonic.opcode, Machine.illegalOpcode, ← BitVec.toNat_inj, BitVec.toNat_ofNat,
    false_implies, implies_true, and_true]
  constructor
  · rintro ⟨h01, h08, h09, h10, h11, h12, h13, h14, h15, h16, h17, h40, hFF⟩
    omega
  · intro h
    omega

theorem Mnemonic.one_le_length (m : Mnemonic) : 1 ≤ m.length := by cases m <;> decide

theorem Mnemonic.length_le_three (m : Mnemonic) : m.length ≤ 3 := by cases m <;> decide

/-- An instruction is built from no operand byte beyond its length (R51, R52). -/
theorem Mnemonic.instr_congr (m : Mnemonic) {o1 o2 o1' o2' : Byte} (h1 : 1 < m.length → o1' = o1)
    (h2 : 2 < m.length → o2' = o2) : m.instr o1' o2' = m.instr o1 o2 := by
  cases m with
  | halt => rfl
  | not | print => simp only [Mnemonic.instr, h1 (by decide)]
  | mov | div | mul | add | sub | and | or | xor | nand | nor =>
    simp only [Mnemonic.instr, h1 (by decide), h2 (by decide)]

/-- The encoding of an instruction is as long as its row says (R52). -/
theorem encode_length (i : Instr) : (encode i).length = i.mnemonic.length :=
  match i with
  | .mov d s => Laws.EncodedLength.mov d s
  | .div d s => Laws.EncodedLength.div d s
  | .mul d s => Laws.EncodedLength.mul d s
  | .add d s => Laws.EncodedLength.add d s
  | .sub d s => Laws.EncodedLength.sub d s
  | .and d s => Laws.EncodedLength.and d s
  | .or d s => Laws.EncodedLength.or d s
  | .xor d s => Laws.EncodedLength.xor d s
  | .not d => Laws.EncodedLength.not d
  | .nand d s => Laws.EncodedLength.nand d s
  | .nor d s => Laws.EncodedLength.nor d s
  | .print s => Laws.EncodedLength.print s
  | .halt => Laws.EncodedLength.halt

end Sys2Proof

namespace Sys2Proof.Machine

/-! The update of a destination (R54): what both its cases leave unchanged. -/

@[simp] theorem State.updateDest_pc (s : State) (d : Dest) (f : Byte → Byte) : (s.updateDest d f).pc = s.pc := by
  cases d <;> simp
@[simp] theorem State.updateDest_cycles (s : State) (d : Dest) (f : Byte → Byte) :
    (s.updateDest d f).cycles = s.cycles := by
  cases d <;> simp
@[simp] theorem State.updateDest_run (s : State) (d : Dest) (f : Byte → Byte) : (s.updateDest d f).run = s.run := by
  cases d <;> simp
@[simp] theorem State.updateDest_out (s : State) (d : Dest) (f : Byte → Byte) : (s.updateDest d f).out = s.out := by
  cases d <;> simp
@[simp] theorem State.updateDest_mem (s : State) (d : Dest) (f : Byte → Byte) : (s.updateDest d f).mem = s.mem := by
  cases d <;> simp

/-- The update of a destination writes at most the one register it names. -/
theorem State.updateDest_reg_unchanged (s : State) (d : Dest) (f : Byte → Byte) :
    ∃ r, ∀ q, q ≠ r → (s.updateDest d f).reg q = s.reg q := by
  cases d with
  | reg r => exact ⟨r, fun q hq => s.reg_setReg_of_ne _ hq⟩
  | invalid b => exact ⟨.A, fun q _ => s.reg_warnInvalidDestination b q⟩

/-- The update of a destination appends at most the one warning. -/
theorem State.updateDest_diag_cases (s : State) (d : Dest) (f : Byte → Byte) :
    (s.updateDest d f).diag = s.diag ∨ ∃ e, (s.updateDest d f).diag = s.diag ++ [e] := by
  cases d with
  | reg r => exact .inl (s.setReg_diag r _)
  | invalid b => exact .inr ⟨_, s.warnInvalidDestination_diag b⟩

/-- Where a completed instruction leaves pc (R13). -/
theorem State.complete_pc_toNat (s : State) (m : Mnemonic) :
    (s.complete m).pc.toNat = (s.pc.toNat + 1 + m.arity) % 65536 := by
  simp [Mnemonic.length, Nat.add_assoc]

/-- What a completed instruction leaves in cycles (R14). -/
theorem State.complete_cycles_toNat (s : State) (m : Mnemonic) :
    (s.complete m).cycles.toNat = (s.cycles.toNat + m.cost) % 2 ^ 64 := by
  simp

/-! The step. -/

/-- Everything a step can leave, with the row that the opcode byte at pc selects. -/
inductive StepEffect (s : State) : State → Prop
  /-- the fatal decode fault (60_exceptions.md R121) -/
  | decodeFault (hop : Mnemonic.ofOpcode (s.memRead s.pc) = none) :
      StepEffect s (s.raise (.unknownOpcode (s.memRead s.pc) s.pc))
  /-- an instruction with a destination completes, by a write or by the warning (R54, R56) -/
  | update (m : Mnemonic) (d : Dest) (f : Byte → Byte) (hop : Mnemonic.ofOpcode (s.memRead s.pc) = some m)
      (hd : d.wf = true) (hprint : m ≠ .print) (hhalt : m ≠ .halt) : StepEffect s ((s.updateDest d f).complete m)
  /-- `print` completes (R110) -/
  | print (src : Src) (hop : Mnemonic.ofOpcode (s.memRead s.pc) = some .print) :
      StepEffect s ((s.emitPrint (s.resolve src)).complete .print)
  /-- `halt` ends the run (R111) -/
  | halt (hop : Mnemonic.ofOpcode (s.memRead s.pc) = some .halt) : StepEffect s s.haltOk
  /-- the fatal division fault (R122) -/
  | divFault (hop : Mnemonic.ofOpcode (s.memRead s.pc) = some .div) : StepEffect s (s.raise (.divideByZero s.pc))

/-- A step starts Running and leaves one of its five effects. -/
theorem step_effect {s t : State} (h : step s = .next t) : s.run = .running ∧ StepEffect s t := by
  obtain ⟨hrun, hcase⟩ := step_next_cases h
  refine ⟨hrun, ?_⟩
  rw [State.fetchByte_zero] at hcase
  obtain ⟨hop, rfl⟩ | ⟨m, hop, hexec⟩ := hcase
  · exact .decodeFault hop
  · have hwf := m.instr_wf (s.fetchByte 1) (s.fetchByte 2)
    have hmn := m.instr_mnemonic (s.fetchByte 1) (s.fetchByte 2)
    generalize m.instr (s.fetchByte 1) (s.fetchByte 2) = i at hexec hwf hmn
    subst hmn
    obtain ⟨d, f, he, hd, hprint, hhalt⟩ | ⟨src, rfl, he⟩ | ⟨rfl, he⟩ | ⟨hdiv, he⟩ := exec_cases i s <;>
      obtain rfl := Host.Outcome.next.inj (he.symm.trans hexec)
    · exact .update _ d f hop (hd hwf) hprint hhalt
    · exact .print src hop
    · exact .halt hop
    · exact .divFault (hdiv ▸ hop)

/-! Runs. -/

theorem core_step (s : State) : Sys2Proof.core.step s = step s := rfl

/-- A run of one step more is a step and then the run. -/
theorem core_run_succ {n : Nat} {s t : State} (h : Sys2Proof.core.run (n + 1) s = .next t) :
    ∃ u, step s = .next u ∧ Sys2Proof.core.run n u = .next t := by
  cases hs : step s with
  | next u => exact ⟨u, rfl, by simpa only [Host.Core.run, core_step, hs] using h⟩
  | fault r => simp [Host.Core.run, core_step, hs] at h
  | refused r => simp [Host.Core.run, core_step, hs] at h

/-- What every step does, a run does, where the relation is reflexive and transitive. -/
theorem core_run_rel {R : State → State → Prop} (refl : ∀ s, R s s) (trans : ∀ s t u, R s t → R t u → R s u)
    (step_rel : ∀ s t, step s = .next t → R s t) (n : Nat) (s t : State) (h : Sys2Proof.core.run n s = .next t) :
    R s t := by
  induction n generalizing s with
  | zero =>
    obtain rfl := Host.Outcome.next.inj h
    exact refl s
  | succ n ih =>
    obtain ⟨u, hu, h⟩ := core_run_succ h
    exact trans s u t (step_rel s u hu) (ih u h)

end Sys2Proof.Machine
end

section
/-! PROOFS. 10_state.md sections 1 to 5 and 9: registers, pc, cycles, run state and logs after a step. -/

namespace Sys2Proof.Machine

/-- Settles O28, by the five things an instruction can do. -/
theorem atMostOneRegisterChanges : Obligations.AtMostOneRegisterChanges := by
  intro i s t h
  obtain ⟨d, f, he, -, hprint, hhalt⟩ | ⟨src, -, he⟩ | ⟨-, he⟩ | ⟨-, he⟩ := exec_cases i s <;>
    obtain rfl := Host.Outcome.next.inj (he.symm.trans h)
  · obtain ⟨r, hr⟩ := s.updateDest_reg_unchanged d f
    exact ⟨⟨r, fun q hq => by rw [State.reg_complete, hr q hq]⟩, fun hm => (hm.elim hprint hhalt).elim⟩
  · exact ⟨⟨.A, by simp⟩, by simp⟩
  · exact ⟨⟨.A, by simp⟩, by simp⟩
  · exact ⟨⟨.A, by simp⟩, by simp⟩

/-- Settles O40, by the effects of a step: only `print` touches `out`, and each effect appends at most once
to `diag`. -/
theorem atMostOneEventPerStep : Obligations.AtMostOneEventPerStep := by
  intro s t h
  cases (step_effect h).2 with
  | decodeFault => exact ⟨.inl rfl, .inr ⟨_, rfl⟩⟩
  | update m d f => exact ⟨.inl (s.updateDest_out d f), s.updateDest_diag_cases d f⟩
  | print src => exact ⟨.inr ⟨_, rfl⟩, .inl rfl⟩
  | halt => exact ⟨.inl rfl, .inr ⟨_, rfl⟩⟩
  | divFault => exact ⟨.inl rfl, .inr ⟨_, rfl⟩⟩

/-- A list that is unchanged or has one more entry begins with the old one. -/
theorem prefix_of_append_at_most_one {α : Type} {l l' : List α} (h : l' = l ∨ ∃ a, l' = l ++ [a]) : l <+: l' := by
  obtain rfl | ⟨a, rfl⟩ := h
  · exact List.prefix_rfl
  · exact List.prefix_append l [a]

/-- Both logs of `t` begin with those of `s` (R16, R17). -/
def LogsExtend (s t : State) : Prop := s.out <+: t.out ∧ s.diag <+: t.diag

theorem LogsExtend.refl (s : State) : LogsExtend s s := ⟨List.prefix_rfl, List.prefix_rfl⟩

theorem LogsExtend.trans {s t u : State} (h : LogsExtend s t) (h' : LogsExtend t u) : LogsExtend s u :=
  ⟨h.1.trans h'.1, h.2.trans h'.2⟩

theorem step_logsExtend {s t : State} (h : step s = .next t) : LogsExtend s t :=
  have ⟨hout, hdiag⟩ := atMostOneEventPerStep s t h
  ⟨prefix_of_append_at_most_one hout, prefix_of_append_at_most_one hdiag⟩

/-- Settles O31: extension of the logs is reflexive and transitive, and every step extends them. -/
theorem logsOnlyGrowOverRuns : Obligations.LogsOnlyGrowOverRuns := by
  intro n s t h
  obtain ⟨⟨o, ho⟩, d, hd⟩ :=
    core_run_rel LogsExtend.refl (fun _ _ _ => LogsExtend.trans) (fun _ _ => step_logsExtend) n s t h
  exact ⟨⟨o, ho.symm⟩, d, hd.symm⟩

/-- Settles O36: the effects that complete an instruction stay Running, the others leave pc alone. -/
theorem programCounterAfterStep : Obligations.ProgramCounterAfterStep := by
  intro s t h
  obtain ⟨hrun, heffect⟩ := step_effect h
  cases heffect with
  | decodeFault => exact ⟨nofun, fun _ => rfl⟩
  | update m d f hop =>
    refine ⟨fun _ => ⟨m, hop, ?_⟩, fun hne => absurd (by simpa using hrun) hne⟩
    rw [State.complete_pc_toNat, State.updateDest_pc]
  | print src hop => exact ⟨fun _ => ⟨.print, hop, State.complete_pc_toNat _ _⟩, fun hne => absurd hrun hne⟩
  | halt => exact ⟨nofun, fun _ => rfl⟩
  | divFault => exact ⟨nofun, fun _ => rfl⟩

/-- Settles O37: every effect but the two faults adds the cost of its row, and the faults add nothing. -/
theorem cyclesAfterStep : Obligations.CyclesAfterStep := by
  intro s t h
  obtain ⟨hrun, heffect⟩ := step_effect h
  cases heffect with
  | decodeFault => exact ⟨by simp, fun _ _ => rfl⟩
  | update m d f hop =>
    refine ⟨fun _ => ⟨m, hop, ?_⟩, by simp [hrun]⟩
    rw [State.complete_cycles_toNat, State.updateDest_cycles]
  | print src hop => exact ⟨fun _ => ⟨.print, hop, State.complete_cycles_toNat _ _⟩, by simp [hrun]⟩
  | halt hop => exact ⟨fun _ => ⟨.halt, hop, by simp [Mnemonic.cost]⟩, by simp⟩
  | divFault => exact ⟨by simp, fun _ _ => rfl⟩

/-- The run state after a step, by the row of the opcode byte: the decode fault where there is none, the
end of the run at `halt`, elsewhere Running, or at `div` its fault (R15, R120). -/
theorem step_run_cases {s t : State} (h : step s = .next t) :
    (Mnemonic.ofOpcode (s.memRead s.pc) = none ∧ t.run = .faulted (.unknownOpcode (s.memRead s.pc) s.pc)) ∨
    ∃ m, Mnemonic.ofOpcode (s.memRead s.pc) = some m ∧
      ((m = .halt ∧ t.run = .haltedOk) ∨ (m = .div ∧ t.run = .faulted (.divideByZero s.pc)) ∨
       (m ≠ .halt ∧ t.run = .running)) := by
  obtain ⟨hrun, heffect⟩ := step_effect h
  cases heffect with
  | decodeFault hop => exact .inl ⟨hop, rfl⟩
  | update m d f hop _ _ hhalt => exact .inr ⟨m, hop, .inr (.inr ⟨hhalt, by simpa using hrun⟩)⟩
  | print src hop => exact .inr ⟨.print, hop, .inr (.inr ⟨nofun, hrun⟩)⟩
  | halt hop => exact .inr ⟨.halt, hop, .inl ⟨rfl, rfl⟩⟩
  | divFault hop => exact .inr ⟨.div, hop, .inr (.inl ⟨rfl, rfl⟩)⟩

/-- Settles O38: each run state a step can end in belongs to one kind of opcode byte. -/
theorem runStateTransitions : Obligations.RunStateTransitions := by
  intro s t h
  have hFF : (s.memRead s.pc).toNat = 0xFF ↔ _ := (Mnemonic.ofOpcode_eq_some_iff_toNat (m := .halt)).symm
  have h08 : (s.memRead s.pc).toNat = 0x08 ↔ _ := (Mnemonic.ofOpcode_eq_some_iff_toNat (m := .div)).symm
  rw [hFF, h08, ← Mnemonic.ofOpcode_eq_none]
  obtain ⟨hop, hrun⟩ | ⟨m, hop, ⟨rfl, hrun⟩ | ⟨rfl, hrun⟩ | ⟨hhalt, hrun⟩⟩ := step_run_cases h
  · rw [hop, hrun]
    exact ⟨by simp, by simp, by rintro _ _ ⟨⟩; exact ⟨rfl, rfl⟩, nofun⟩
  · simp [hop, hrun]
  · rw [hop, hrun]
    exact ⟨by simp, by simp, nofun, by rintro _ ⟨⟩; exact ⟨rfl, rfl⟩⟩
  · simp [hop, hrun, hhalt]

/-- Settles O47, by the three run states. -/
theorem exitStatusOfRunState : Obligations.ExitStatusOfRunState := by
  intro s
  unfold State.exitStatus
  cases s.run with
  | running => simp
  | haltedOk => simp
  | faulted c => simp

end Sys2Proof.Machine
end

section
/-! PROOFS. The read port (10_state.md R21): which addresses a step presents, and that it depends on no
other byte of memory. -/

namespace Sys2Proof.Machine

/-! The addresses. -/

theorem State.fetchAddrs_length (s : State) : s.fetchAddrs.length = s.fetchLength := by
  simp [State.fetchAddrs]

theorem State.fetchLength_of_ofOpcode {s : State} {m : Mnemonic} (h : Mnemonic.ofOpcode (s.memRead s.pc) = some m) :
    s.fetchLength = m.length := by
  simp [State.fetchLength, h]

theorem State.fetchLength_of_ofOpcode_none {s : State} (h : Mnemonic.ofOpcode (s.memRead s.pc) = none) :
    s.fetchLength = 1 := by
  simp [State.fetchLength, h]

theorem State.fetchLength_bounds (s : State) : 1 ≤ s.fetchLength ∧ s.fetchLength ≤ 3 := by
  cases h : Mnemonic.ofOpcode (s.memRead s.pc) with
  | none => simp [State.fetchLength_of_ofOpcode_none h]
  | some m =>
    rw [State.fetchLength_of_ofOpcode h]
    exact ⟨m.one_le_length, m.length_le_three⟩

theorem State.fetchAddr_toNat (s : State) (k : Nat) : (s.fetchAddr k).toNat = (s.pc.toNat + k) % 65536 := by
  simp [State.fetchAddr]

theorem State.fetchAddrs_getD (s : State) {k : Nat} (hk : k < s.fetchLength) :
    s.fetchAddrs.getD k 0#16 = s.fetchAddr k := by
  simp [State.fetchAddrs, hk]

theorem State.fetchAddr_mem_fetchAddrs (s : State) {k : Nat} (hk : k < s.fetchLength) :
    s.fetchAddr k ∈ s.fetchAddrs :=
  List.mem_map_of_mem (List.mem_range.2 hk)

/-- A fetched instruction has as many bytes as were read (R21, R52). -/
theorem State.fetchLength_of_fetch {s : State} {i : Instr} (h : s.fetch = .instr i) :
    s.fetchLength = (encode i).length := by
  obtain ⟨-, hf⟩ | ⟨m, hop, hf⟩ := s.fetch_cases
  · rw [hf] at h
    cases h
  · rw [hf] at h
    cases h
    rw [encode_length, Mnemonic.instr_mnemonic]
    exact State.fetchLength_of_ofOpcode (s.fetchByte_zero ▸ hop)

/-- Settles O41. -/
theorem fetchAddressesOfStep : Obligations.FetchAddressesOfStep := by
  intro s
  rw [State.fetchAddrs_length]
  refine ⟨s.fetchLength_bounds.1, s.fetchLength_bounds.2, fun k hk => ?_, fun hop => ?_, fun i hi => ?_⟩
  · rw [s.fetchAddrs_getD hk, s.fetchAddr_toNat]
  · exact State.fetchLength_of_ofOpcode_none (Mnemonic.ofOpcode_eq_none.2 hop)
  · exact State.fetchLength_of_fetch hi

/-! Another memory under the same state: no operation of an instruction looks at it. -/

/-- The same state over another memory. -/
def State.withMem (s : State) (m : Memory) : State := { s with mem := m }

@[simp] theorem State.withMem_pc (s : State) (m : Memory) : (s.withMem m).pc = s.pc := rfl
@[simp] theorem State.withMem_run (s : State) (m : Memory) : (s.withMem m).run = s.run := rfl
@[simp] theorem State.reg_withMem (s : State) (m : Memory) (q : Reg) : (s.withMem m).reg q = s.reg q := by
  cases q <;> rfl
@[simp] theorem State.resolve_withMem (s : State) (m : Memory) (src : Src) :
    (s.withMem m).resolve src = s.resolve src := by
  cases src <;> simp
@[simp] theorem State.setReg_withMem (s : State) (m : Memory) (r : Reg) (v : Byte) :
    (s.withMem m).setReg r v = (s.setReg r v).withMem m := by
  cases r <;> rfl
@[simp] theorem State.warnInvalidDestination_withMem (s : State) (m : Memory) (b : Byte) :
    (s.withMem m).warnInvalidDestination b = (s.warnInvalidDestination b).withMem m := rfl
@[simp] theorem State.updateDest_withMem (s : State) (m : Memory) (d : Dest) (f : Byte → Byte) :
    (s.withMem m).updateDest d f = (s.updateDest d f).withMem m := by
  cases d <;> simp
@[simp] theorem State.complete_withMem (s : State) (m : Memory) (k : Mnemonic) :
    (s.withMem m).complete k = (s.complete k).withMem m := rfl
@[simp] theorem State.emitPrint_withMem (s : State) (m : Memory) (v : Byte) :
    (s.withMem m).emitPrint v = (s.emitPrint v).withMem m := rfl
@[simp] theorem State.raise_withMem (s : State) (m : Memory) (c : FaultCause) :
    (s.withMem m).raise c = (s.raise c).withMem m := rfl
@[simp] theorem State.haltOk_withMem (s : State) (m : Memory) : (s.withMem m).haltOk = s.haltOk.withMem m := rfl

theorem divByZero_withMem (d : Dest) (s : State) (m : Memory) :
    divByZero d (s.withMem m) = (divByZero d s).withMem m := by
  cases d with
  | reg r => rfl
  | invalid b => cases h : Config.divZeroWithInvalidDest <;> simp [divByZero, h]

/-- No instruction's meaning looks at memory (20_memory.md R34). -/
theorem exec_withMem {i : Instr} {s t : State} (m : Memory) (h : exec i s = .next t) :
    exec i (s.withMem m) = .next (t.withMem m) := by
  cases i with
  | mov | add | sub | mul =>
    cases h
    simp [exec, execMov, execAdd, execSub, execMul]
  | and | or | xor | not | nand | nor =>
    cases h
    simp [exec, execAnd, execOr, execXor, execNot, execNand, execNor]
  | print | halt =>
    cases h
    simp [exec, execPrint, execHalt]
  | div d src =>
    by_cases h0 : s.resolve src = 0#8
    · simp only [exec, execDiv, h0, if_true, State.resolve_withMem, divByZero_withMem] at h ⊢
      cases h; rfl
    · simp only [exec, execDiv, h0, if_false, State.resolve_withMem, State.updateDest_withMem,
        State.complete_withMem] at h ⊢
      cases h; rfl

/-! The fetch. -/

theorem State.fetch_of_ofOpcode {s : State} {m : Mnemonic} (h : Mnemonic.ofOpcode (s.fetchByte 0) = some m) :
    s.fetch = .instr (m.instr (s.fetchByte 1) (s.fetchByte 2)) := by
  simp only [State.fetch, decodeFrom, h]

theorem State.fetch_of_ofOpcode_none {s : State} (h : Mnemonic.ofOpcode (s.fetchByte 0) = none) :
    s.fetch = .unknown (s.fetchByte 0) := by
  simp only [State.fetch, decodeFrom, h]

/-- A fetch finds the same over a memory that has the same bytes at the addresses it presents. -/
theorem State.fetch_withMem {s : State} {m : Memory}
    (h : ∀ a ∈ s.fetchAddrs, Memory.read m a = s.memRead a) : (s.withMem m).fetch = s.fetch := by
  have hbyte : ∀ k, k < s.fetchLength → (s.withMem m).fetchByte k = s.fetchByte k := fun k hk =>
    h (s.fetchAddr k) (s.fetchAddr_mem_fetchAddrs hk)
  have h0 := hbyte 0 s.fetchLength_bounds.1
  cases hop : Mnemonic.ofOpcode (s.fetchByte 0) with
  | none => rw [State.fetch_of_ofOpcode_none hop, State.fetch_of_ofOpcode_none (h0 ▸ hop), h0]
  | some row =>
    have hlen : s.fetchLength = row.length := State.fetchLength_of_ofOpcode (s.fetchByte_zero ▸ hop)
    rw [State.fetch_of_ofOpcode hop, State.fetch_of_ofOpcode (h0 ▸ hop),
      row.instr_congr (fun h1 => hbyte 1 (hlen ▸ h1)) (fun h2 => hbyte 2 (hlen ▸ h2))]

theorem step_of_fetch_instr {s : State} {i : Instr} (hrun : s.run = .running) (hf : s.fetch = .instr i) :
    step s = exec i s := by
  simp only [step, hrun, hf]

theorem step_of_fetch_unknown {s : State} {op : Byte} (hrun : s.run = .running) (hf : s.fetch = .unknown op) :
    step s = .next (s.raise (.unknownOpcode op s.pc)) := by
  simp only [step, hrun, hf]

/-- Settles O42: the fetch finds the same, and what is then done looks at no memory. -/
theorem stepReadsOnlyFetchedBytes : Obligations.StepReadsOnlyFetchedBytes := by
  intro s t m hread h
  change step (s.withMem m) = .next (t.withMem m)
  have hrun := (step_effect h).1
  have hfetch := State.fetch_withMem hread
  cases hf : s.fetch with
  | unknown op =>
    rw [step_of_fetch_unknown hrun hf] at h
    cases h
    exact step_of_fetch_unknown (s := s.withMem m) hrun (hfetch.trans hf)
  | instr i =>
    rw [step_of_fetch_instr hrun hf] at h
    rw [step_of_fetch_instr (s := s.withMem m) hrun (hfetch.trans hf)]
    exact exec_withMem m h

end Sys2Proof.Machine
end

section
/-! PROOFS. Reset (10_state.md R27) and the printed line (R16). -/

namespace Sys2Proof.Machine

/-- Settles O44: nothing is logged, so there is neither a warning nor a report. -/
theorem resetMeetsInvariant : Obligations.ResetMeetsInvariant :=
  ⟨State.reset_wf, ⟨[], rfl, nofun⟩, trivial⟩

/-- No cell is written after reset, so every read is of an unlisted address. -/
theorem State.memRead_reset (a : Addr) : State.reset.memRead a = Config.memInit a := rfl

/-- Settles O45. -/
theorem resetValues : Obligations.ResetValues := by
  refine ⟨fun r => ?_, rfl, rfl, rfl, rfl, rfl, State.memRead_reset⟩
  cases r <;> rfl

/-- The numeral of a byte by its number of digits. -/
theorem decimal_cases (v : Byte) :
    (v.toNat < 10 ∧ decimal v = [digitByte v.toNat]) ∨
    (10 ≤ v.toNat ∧ v.toNat < 100 ∧ decimal v = [digitByte (v.toNat / 10), digitByte (v.toNat % 10)]) ∨
    (100 ≤ v.toNat ∧ v.toNat < 256 ∧
      decimal v = [digitByte (v.toNat / 100), digitByte (v.toNat / 10 % 10), digitByte (v.toNat % 10)]) := by
  have hv := v.isLt
  simp only [decimal]
  split
  · exact .inl ⟨‹_›, rfl⟩
  · split
    · exact .inr (.inl ⟨by omega, ‹_›, rfl⟩)
    · exact .inr (.inr ⟨by omega, hv, rfl⟩)

theorem digitByte_toNat {d : Nat} (h : d < 10) : (digitByte d).toNat = 0x30 + d := by
  simp only [digitByte, BitVec.toNat_ofNat]
  omega

theorem digitByte_eq_zero_digit {d : Nat} (h : d < 10) : digitByte d = 0x30#8 ↔ d = 0 := by
  rw [← BitVec.toNat_inj, digitByte_toNat h]
  simp

/-- Every byte of the numeral is the code of a digit (R16). -/
theorem mem_decimal {v b : Byte} (h : b ∈ decimal v) : ∃ d, d < 10 ∧ b = digitByte d := by
  obtain ⟨hv, he⟩ | ⟨-, hv, he⟩ | ⟨-, hv, he⟩ := decimal_cases v <;>
    simp only [he, List.mem_cons, List.not_mem_nil, or_false] at h
  · exact ⟨_, hv, h⟩
  · obtain h | h := h
    · exact ⟨_, by omega, h⟩
    · exact ⟨_, by omega, h⟩
  · obtain h | h | h := h
    · exact ⟨_, by omega, h⟩
    · exact ⟨_, by omega, h⟩
    · exact ⟨_, by omega, h⟩

/-- The value of a list of digit codes, most significant digit first. -/
def numeralValue (ds : List Byte) : Nat := ds.foldl (fun n d => n * 10 + (d.toNat - 0x30)) 0

/-- The numeral denotes the byte. -/
theorem numeralValue_decimal (v : Byte) : numeralValue (decimal v) = v.toNat := by
  obtain ⟨hv, he⟩ | ⟨-, hv, he⟩ | ⟨-, hv, he⟩ := decimal_cases v <;>
    simp only [he, numeralValue, List.foldl_cons, List.foldl_nil]
  · rw [digitByte_toNat hv]
    omega
  · rw [digitByte_toNat (by omega), digitByte_toNat (by omega)]
    omega
  · rw [digitByte_toNat (by omega), digitByte_toNat (by omega), digitByte_toNat (by omega)]
    omega

/-- A numeral that begins with the digit 0 is that digit. -/
theorem decimal_of_head_zero {v : Byte} (h : (decimal v).head? = some 0x30#8) : decimal v = [0x30#8] := by
  obtain ⟨-, he⟩ | ⟨h10, hv, he⟩ | ⟨h100, hv, he⟩ := decimal_cases v <;>
    rw [he, List.head?_cons, Option.some.injEq] at h
  · rw [he, h]
  · rw [digitByte_eq_zero_digit (by omega)] at h
    omega
  · rw [digitByte_eq_zero_digit (by omega)] at h
    omega

theorem decimal_ne_nil (v : Byte) : decimal v ≠ [] := by
  obtain ⟨-, he⟩ | ⟨-, -, he⟩ | ⟨-, -, he⟩ := decimal_cases v <;> simp [he]

/-- Settles O49: the digits are the numeral of R16. -/
theorem printedLineIsDecimal : Obligations.PrintedLineIsDecimal := by
  intro v
  refine ⟨decimal v, rfl, decimal_ne_nil v, fun b hb => ?_, numeralValue_decimal v, decimal_of_head_zero⟩
  obtain ⟨d, hd, rfl⟩ := mem_decimal hb
  rw [digitByte_toNat hd]
  omega

end Sys2Proof.Machine
end

section
/-! PROOFS. 20_memory.md: a one-byte write changes one cell (R32, R33), and no instruction, step or run
writes memory (R34, R41). -/

namespace Sys2Proof.Machine

/-- Settles O48, by the two laws of a read after a write of the cells; the other fields are not touched. -/
theorem writeChangesOneCell : Obligations.WriteChangesOneCell := fun s a v =>
  ⟨Memory.read_write_self s.mem a v, fun _ hb => Memory.read_write_of_ne s.mem v hb, rfl⟩

/-- A read depends on nothing but the cells (R32). -/
theorem State.memRead_congr {s t : State} (h : t.mem = s.mem) (a : Addr) : t.memRead a = s.memRead a :=
  congrArg (Memory.read · a) h

/-- None of the four things an instruction can do writes a cell (R34). -/
theorem exec_mem {i : Instr} {s t : State} (h : exec i s = .next t) : t.mem = s.mem := by
  obtain ⟨d, f, he, -⟩ | ⟨src, -, he⟩ | ⟨-, he⟩ | ⟨-, he⟩ := exec_cases i s <;>
    obtain rfl := Host.Outcome.next.inj (he.symm.trans h)
  · rw [State.complete_mem, State.updateDest_mem]
  · rw [State.complete_mem, State.emitPrint_mem]
  · exact s.haltOk_mem
  · exact s.raise_mem _

/-- A step runs an instruction or takes the decode fault, which writes no cell either (R34, R121). -/
theorem step_mem {s t : State} (h : step s = .next t) : t.mem = s.mem := by
  obtain ⟨-, ⟨-, rfl⟩ | ⟨m, -, hexec⟩⟩ := step_next_cases h
  · exact s.raise_mem _
  · exact exec_mem hexec

/-- A run of any length leaves the cells as they were (R34, R41). -/
theorem core_run_mem {n : Nat} {s t : State} (h : Sys2Proof.core.run n s = .next t) : t.mem = s.mem :=
  core_run_rel (R := fun s t => t.mem = s.mem) (fun _ => rfl) (fun _ _ _ hst htu => htu.trans hst)
    (fun _ _ => step_mem) n s t h

/-- Settles O29: equal cells read alike. -/
theorem noInstructionWritesMemory : Obligations.NoInstructionWritesMemory := fun _ _ _ h =>
  ⟨exec_mem h, State.memRead_congr (exec_mem h)⟩

/-- Settles O30: equal cells read alike. -/
theorem memoryIsConstantOverRuns : Obligations.MemoryIsConstantOverRuns := fun _ _ _ h =>
  ⟨core_run_mem h, State.memRead_congr (core_run_mem h)⟩

end Sys2Proof.Machine
end

section
/-! PROOFS. 30_encoding.md sections 1 to 5: the decoder and the encoder as inverses, and the step that
runs what memory holds at pc. -/

namespace Sys2Proof

/-! The encoder by rows (R51). -/

/-- The encoding of a row's instruction is its opcode byte and as many operand bytes as its format has. -/
theorem encode_instr (m : Mnemonic) (o1 o2 : Byte) :
    encode (m.instr o1 o2) = m.opcode :: [o1, o2].take m.arity := by
  cases m with
  | halt => rfl
  | print => exact congrArg ([0x40#8, ·]) (Src.toByte_ofByte o1)
  | not => exact congrArg ([0x15#8, ·]) (Dest.toByte_ofByte o1)
  | mov | div | mul | add | sub | and | or | xor | nand | nor =>
    simp only [Mnemonic.instr, encode, Dest.toByte_ofByte, Src.toByte_ofByte]
    rfl

/-- The same, cut at the length of the instruction (R52). -/
theorem encode_instr_eq_take (m : Mnemonic) (o1 o2 : Byte) :
    encode (m.instr o1 o2) = [m.opcode, o1, o2].take m.length := by
  rw [encode_instr, Mnemonic.length, Nat.add_comm, List.take_succ_cons]

/-- Every well-formed instruction is built from some operand bytes by its own row. -/
theorem Instr.exists_operandBytes {i : Instr} (h : i.wf = true) : ∃ o1 o2, i.mnemonic.instr o1 o2 = i := by
  cases i with
  | halt => exact ⟨0#8, 0#8, rfl⟩
  | print s => exact ⟨s.toByte, 0#8, congrArg Instr.print (s.ofByte_toByte h)⟩
  | not d => exact ⟨d.toByte, 0#8, congrArg Instr.not (d.ofByte_toByte h)⟩
  | mov d s | div d s | mul d s | add d s | sub d s | and d s | or d s | xor d s | nand d s | nor d s =>
    obtain ⟨hd, hs⟩ := Bool.and_eq_true_iff.1 h
    refine ⟨d.toByte, s.toByte, ?_⟩
    simp only [Instr.mnemonic, Mnemonic.instr, d.ofByte_toByte hd, s.ofByte_toByte hs]

theorem Mnemonic.arity_le_two (m : Mnemonic) : m.arity ≤ 2 := by cases m <;> decide

/-- A row builds its instruction from the operand bytes at the front of a list that has enough of them. -/
theorem Mnemonic.instr_take_append (m : Mnemonic) (o1 o2 : Byte) (rest : List Byte) :
    m.instr (([o1, o2].take m.arity ++ rest).getD 0 0#8) (([o1, o2].take m.arity ++ rest).getD 1 0#8) =
      m.instr o1 o2 := by
  cases m <;> rfl

/-- The bytes a list has at its first two places, cut to `n` of them, are its first `n` bytes. -/
theorem take_getD_zero_one {bs : List Byte} {n : Nat} (h2 : n ≤ 2) (hn : n ≤ bs.length) :
    [bs.getD 0 0#8, bs.getD 1 0#8].take n = bs.take n := by
  match n, bs with
  | 0, _ => rfl
  | 1, _ :: _ => rfl
  | 2, _ :: _ :: _ => rfl

/-! The decoder by rows (R52, R62). -/

theorem decode_cons_of_ofOpcode_none {op : Byte} (h : Mnemonic.ofOpcode op = none) (bs : List Byte) :
    decode (op :: bs) = .reject (.unknownOpcode op) := by
  simp [decode, decodeFrom, h]

theorem decode_cons_of_ofOpcode {op : Byte} {m : Mnemonic} (h : Mnemonic.ofOpcode op = some m) (bs : List Byte) :
    decode (op :: bs) =
      if bs.length < m.arity then .reject (.truncated op)
      else .ok (m.instr (bs.getD 0 0#8) (bs.getD 1 0#8)) (bs.drop m.arity) := by
  simp [decode, decodeFrom, h]

/-- What an accepted list of bytes is: an opcode byte of the table and at least its operand bytes. -/
theorem decode_eq_ok {bytes rest : List Byte} {i : Instr} (h : decode bytes = .ok i rest) :
    ∃ (m : Mnemonic) (bs : List Byte), bytes = m.opcode :: bs ∧ m.arity ≤ bs.length ∧
      i = m.instr (bs.getD 0 0#8) (bs.getD 1 0#8) ∧ rest = bs.drop m.arity := by
  cases bytes with
  | nil => cases h
  | cons op bs =>
    cases hop : Mnemonic.ofOpcode op with
    | none =>
      rw [decode_cons_of_ofOpcode_none hop] at h
      cases h
    | some m =>
      rw [decode_cons_of_ofOpcode hop] at h
      split at h
      · cases h
      · cases h
        exact ⟨m, bs, by rw [m.opcode_of_ofOpcode hop], by omega, rfl, rfl⟩

/-- A row's encoding followed by anything decodes to the row's instruction. -/
theorem decode_encode_instr (m : Mnemonic) (o1 o2 : Byte) (rest : List Byte) :
    decode (encode (m.instr o1 o2) ++ rest) = .ok (m.instr o1 o2) rest := by
  have hlen : ([o1, o2].take m.arity).length = m.arity := List.length_take_of_le m.arity_le_two
  rw [encode_instr, List.cons_append, decode_cons_of_ofOpcode m.ofOpcode_opcode, if_neg (by simp [hlen]),
    m.instr_take_append, List.drop_left' hlen]

/-- Settles O1: a well-formed instruction is its row's instruction for some operand bytes. -/
theorem decodeOfEncode : Obligations.DecodeOfEncode := by
  intro i rest h
  obtain ⟨o1, o2, hi⟩ := Instr.exists_operandBytes h
  rw [← hi]
  exact decode_encode_instr _ o1 o2 rest

/-- Settles O2: the decoder keeps the opcode byte as the row, the operand bytes in the instruction, and the
rest. -/
theorem encodeOfDecode : Obligations.EncodeOfDecode := by
  intro bytes rest i h
  obtain ⟨m, bs, rfl, hlen, rfl, rfl⟩ := decode_eq_ok h
  refine ⟨m.instr_wf _ _, ?_⟩
  rw [encode_instr, take_getD_zero_one m.arity_le_two hlen, List.cons_append, List.take_append_drop]

/-- Settles O3: those bytes are the encoding of the row's instruction for these operand bytes. -/
theorem everyOperandByteIsLegal : Obligations.EveryOperandByteIsLegal := by
  intro m o1 o2
  have hbytes : [m.opcode, o1, o2].take m.length = encode (m.instr o1 o2) ++ [] := by
    rw [encode_instr_eq_take, List.append_nil]
  exact ⟨m.instr o1 o2, hbytes ▸ decode_encode_instr m o1 o2 [], m.instr_wf o1 o2, m.instr_mnemonic o1 o2⟩

/-- Settles O4: each word is the encoding of the instruction its text names. -/
theorem specWordsDecode : Obligations.SpecWordsDecode :=
  ⟨decodeOfEncode (.mov (.reg .A) (.imm 5#8)) [] rfl, decodeOfEncode (.div (.reg .A) (.reg .B)) [] rfl,
   decodeOfEncode (.mul (.reg .A) (.reg .B)) [] rfl, decodeOfEncode (.add (.reg .A) (.reg .B)) [] rfl,
   decodeOfEncode (.sub (.reg .A) (.imm 60#8)) [] rfl, decodeOfEncode (.and (.reg .C) (.reg .B)) [] rfl,
   decodeOfEncode (.or (.reg .A) (.reg .B)) [] rfl, decodeOfEncode (.xor (.reg .B) (.imm 255#8)) [] rfl,
   decodeOfEncode (.not (.reg .C)) [] rfl, decodeOfEncode (.nand (.reg .A) (.reg .B)) [] rfl,
   decodeOfEncode (.nor (.reg .B) (.reg .C)) [] rfl, decodeOfEncode (.print (.reg .A)) [] rfl,
   decodeOfEncode .halt [] rfl⟩

/-- Settles O5: the bytes that select no row are those of R62, and a byte that selects one is accepted or
found truncated. -/
theorem illegalOpcodesAreRejected : Obligations.IllegalOpcodesAreRejected := by
  intro op rest
  rw [← Mnemonic.ofOpcode_eq_none]
  cases hop : Mnemonic.ofOpcode op with
  | none => simp [decode_cons_of_ofOpcode_none hop]
  | some m =>
    rw [decode_cons_of_ofOpcode hop]
    split <;> simp

/-- Settles O6, by evaluation of the three columns. -/
theorem opcodeTableRows : Obligations.OpcodeTableRows := rfl

/-! Operand bytes (R53, R54). -/

/-- The code of a register is read as that register. -/
theorem Src.ofByte_code (r : Reg) : Src.ofByte r.code = .reg r := Src.ofByte_toByte (.reg r) rfl

theorem Dest.ofByte_code (r : Reg) : Dest.ofByte r.code = .reg r := Dest.ofByte_toByte (.reg r) rfl

theorem Src.ofByte_of_three_le {b : Byte} (h : 3 ≤ b.toNat) : Src.ofByte b = .imm b :=
  Src.ofByte_toByte (.imm b) (decide_eq_true h)

/-- Settles O8: the three codes are register codes, any other byte is itself an invalid destination. -/
theorem destinationByteDecoding : Obligations.DestinationByteDecoding := by
  intro b
  refine ⟨fun h => ?_, fun h => ?_, fun h => ?_, fun h => Dest.ofByte_toByte (.invalid b) (decide_eq_true h)⟩
  · rw [show b = Reg.A.code from BitVec.eq_of_toNat_eq h, Dest.ofByte_code]
  · rw [show b = Reg.B.code from BitVec.eq_of_toNat_eq h, Dest.ofByte_code]
  · rw [show b = Reg.C.code from BitVec.eq_of_toNat_eq h, Dest.ofByte_code]

end Sys2Proof

namespace Sys2Proof.Machine

/-- Settles O7: a register code resolves to that register, any other byte to itself. -/
theorem sourceByteResolution : Obligations.SourceByteResolution := by
  intro s b
  refine ⟨fun h => ?_, fun h => ?_, fun h => ?_, fun h => by rw [Src.ofByte_of_three_le h, State.resolve_imm]⟩
  · rw [show b = Reg.A.code from BitVec.eq_of_toNat_eq h, Src.ofByte_code]; rfl
  · rw [show b = Reg.B.code from BitVec.eq_of_toNat_eq h, Src.ofByte_code]; rfl
  · rw [show b = Reg.C.code from BitVec.eq_of_toNat_eq h, Src.ofByte_code]; rfl

/-! Execution (R56, R61). -/

/-- Settles O27, by the things an instruction can do: each is a next state. -/
theorem everyInstructionExecutes : Obligations.EveryInstructionExecutes := by
  intro i s
  obtain ⟨d, f, he, -⟩ | ⟨src, -, he⟩ | ⟨-, he⟩ | ⟨-, he⟩ := exec_cases i s
  · exact ⟨_, he⟩
  · exact ⟨_, he⟩
  · exact ⟨_, he⟩
  · exact ⟨_, he⟩

/-- The fetch where a row's opcode byte stands at pc (R51). -/
theorem State.fetch_of_opcode {s : State} (m : Mnemonic) (h : s.memRead s.pc = m.opcode) :
    s.fetch = .instr (m.instr (s.memRead (s.pc + 1#16)) (s.memRead (s.pc + 2#16))) :=
  State.fetch_of_ofOpcode (by rw [s.fetchByte_zero, h, m.ofOpcode_opcode])

/-- Settles O56: the fields of each row, in the order of the statement. -/
theorem fieldPositions : Obligations.FieldPositions := fun _ =>
  ⟨State.fetch_of_opcode .mov, State.fetch_of_opcode .div, State.fetch_of_opcode .mul,
   State.fetch_of_opcode .add, State.fetch_of_opcode .sub, State.fetch_of_opcode .and,
   State.fetch_of_opcode .or, State.fetch_of_opcode .xor, State.fetch_of_opcode .nand,
   State.fetch_of_opcode .nor, State.fetch_of_opcode .not, State.fetch_of_opcode .print,
   State.fetch_of_opcode .halt⟩

/-- Settles O32: the fetch finds what the decoder finds in the three bytes from pc on. -/
theorem stepRunsDecodedInstruction : Obligations.StepRunsDecodedInstruction := by
  intro s i rest hrun hdec _
  obtain ⟨m, bs, hbytes, -, rfl, -⟩ := decode_eq_ok hdec
  obtain ⟨hop, rfl⟩ := List.cons.inj hbytes
  exact step_of_fetch_instr hrun (State.fetch_of_opcode m hop)

/-- Settles O33: the opcode byte at pc selects the row, and of the two bytes after it the row looks only at
those the encoding has. -/
theorem stepRunsEncodedInstruction : Obligations.StepRunsEncodedInstruction := by
  intro s i hrun hwf hmem
  obtain ⟨o1, o2, hi⟩ := Instr.exists_operandBytes hwf
  generalize i.mnemonic = m at hi
  subst hi
  have hlen : (encode (m.instr o1 o2)).length = m.length := by rw [encode_length, m.instr_mnemonic]
  have hbyte : ∀ k, k < m.length → s.fetchByte k = [m.opcode, o1, o2].getD k 0#8 := fun k hk => by
    rw [show s.fetchByte k = _ from hmem k (hlen ▸ hk), encode_instr_eq_take, List.getD_eq_getElem?_getD,
      List.getElem?_take_of_lt hk, List.getD_eq_getElem?_getD]
  have hop : Mnemonic.ofOpcode (s.fetchByte 0) = some m := by
    rw [hbyte 0 m.one_le_length]
    exact m.ofOpcode_opcode
  have hfetch := State.fetch_of_ofOpcode hop
  rw [m.instr_congr (hbyte 1) (hbyte 2)] at hfetch
  exact step_of_fetch_instr hrun hfetch

/-- Settles O34: no row is found, so the step is the decode fault with the byte at pc. -/
theorem illegalOpcodeFaults : Obligations.IllegalOpcodeFaults := by
  intro s hrun hop
  have hfetch : s.fetch = .unknown (s.memRead s.pc) := by
    rw [State.fetch_of_ofOpcode_none (s.fetchByte_zero.symm ▸ Mnemonic.ofOpcode_eq_none.2 hop), s.fetchByte_zero]
  exact ⟨_, step_of_fetch_unknown hrun hfetch, rfl, rfl, s.reg_raise _, rfl, rfl, rfl, s.memRead_raise _⟩

end Sys2Proof.Machine
end

section
/-! PROOFS. 30_encoding.md section 6: the text of a program assembles to the encodings of its instructions
(R70 to R73, R75). -/

namespace Sys2Proof.Machine

/-! Tokens (R70). -/

/-- A line end after a text adds no token: it ends the last one, as the end of the text does. -/
theorem lex_append_newline (mode : LexMode) (acc text : List Byte) :
    lex mode acc (text ++ [newline]) = lex mode acc text := by
  induction text generalizing mode acc with
  | nil => cases mode <;> simp [lex, newline, ascii, isSpace, endWord]
  | cons b bs ih => cases mode <;> simp only [List.cons_append, lex, ih]

theorem assemble_append_newline (text : List Byte) : assemble (text ++ [newline]) = assemble text :=
  congrArg (parse .statement) (lex_append_newline .text [] text)

/-! Operand tokens (R72). -/

/-- A list of bytes that the lexer reads as one token and that emits this byte as an operand. -/
structure IsOperandText (w : List Byte) (b : Byte) : Prop where
  token : w.all tokenByte = true
  ne_nil : w ≠ []
  emits : operandOf w = .byte b

theorem isOperandText_regLetter (r : Reg) : IsOperandText [regLetter r] r.code := by
  cases r <;> exact ⟨by decide, by decide, by decide⟩

theorem tokenByte_digitByte : ∀ d < 10, tokenByte (digitByte d) = true := by decide

theorem digitValue_digitByte : ∀ d < 10, digitValue (digitByte d) = some d := by decide

theorem registerLetter_digitByte : ∀ d < 10, registerLetter [digitByte d] = none := by decide

/-- A register letter stands alone. -/
theorem registerLetter_cons_cons (b c : Byte) (w : List Byte) : registerLetter (b :: c :: w) = none := rfl

/-- The decimal reading of digit codes is the value of the numeral. -/
theorem digitsValue_ten (ds : List Byte) (h : ∀ b ∈ ds, ∃ d, d < 10 ∧ b = digitByte d) (acc : Nat) :
    digitsValue 10 acc ds = some (ds.foldl (fun n d => n * 10 + (d.toNat - 0x30)) acc) := by
  induction ds generalizing acc with
  | nil => rfl
  | cons b ds ih =>
    obtain ⟨⟨d, hd, rfl⟩, hds⟩ := List.forall_mem_cons.1 h
    simp only [digitsValue, digitValue_digitByte d hd, if_pos hd, ih hds, List.foldl_cons, digitByte_toNat hd,
      Nat.add_sub_cancel_left]

/-- A literal that does not begin with the digit 0, or is that digit alone, is read in base 10. -/
theorem literal_eq_digitsValue {w : List Byte} (h0 : w ≠ []) (hz : w.head? = some 0x30#8 → w = [0x30#8]) :
    literal w = digitsValue 10 0 w := by
  match w with
  | [b] => rfl
  | b :: c :: w =>
    have hb : b ≠ ascii '0' := fun hb => by simpa using hz (congrArg some hb)
    simp only [literal, if_neg hb]

theorem literal_decimal (v : Byte) : literal (decimal v) = some v.toNat := by
  rw [literal_eq_digitsValue (decimal_ne_nil v) decimal_of_head_zero, digitsValue_ten _ fun _ => mem_decimal]
  exact congrArg some (numeralValue_decimal v)

theorem registerLetter_decimal (v : Byte) : registerLetter (decimal v) = none := by
  obtain ⟨hv, he⟩ | ⟨-, -, he⟩ | ⟨-, -, he⟩ := decimal_cases v <;> rw [he]
  · exact registerLetter_digitByte _ hv
  · exact registerLetter_cons_cons _ _ _
  · exact registerLetter_cons_cons _ _ _

/-- The numeral of a byte is an operand that emits the byte, 0, 1 and 2 included. -/
theorem isOperandText_decimal (v : Byte) : IsOperandText (decimal v) v where
  token := List.all_eq_true.2 fun b hb => by
    obtain ⟨d, hd, rfl⟩ := mem_decimal hb
    exact tokenByte_digitByte d hd
  ne_nil := decimal_ne_nil v
  emits := by
    simp only [operandOf, registerLetter_decimal, literal_decimal, if_pos (Nat.le_of_lt_succ v.isLt),
      BitVec.ofNat_toNat, BitVec.setWidth_eq]

theorem isOperandText_srcText (s : Src) : IsOperandText (srcText s) s.toByte := by
  cases s with
  | reg r => exact isOperandText_regLetter r
  | imm v => exact isOperandText_decimal v

theorem isOperandText_destText (d : Dest) : IsOperandText (destText d) d.toByte := by
  cases d with
  | reg r => exact isOperandText_regLetter r
  | invalid v => exact isOperandText_decimal v

/-! Statements (R71), each ended by a line end. -/

theorem parse_mnemonic {m : Mnemonic} (rest : List Lexeme) :
    parse .statement (.word (mnemonicName m) :: rest) =
      (parse (ParseState.start m.arity) rest).emit m.opcode := by
  obtain ⟨-, -, hname⟩ := mnemonicName_token m
  simp only [parse, hname]

theorem parse_operand {w : List Byte} {b : Byte} (h : IsOperandText w b) (more : Nat) (commaOk : Bool)
    (rest : List Lexeme) :
    parse (.operand more commaOk) (.word w :: rest) = (parse (ParseState.after more) rest).emit b := by
  simp only [parse, h.emits]

/-- The comma that R70 lists is skipped. -/
theorem parse_operand_comma (more : Nat) (rest : List Lexeme) :
    parse (.operand more true) (.comma :: rest) = parse (.operand more false) rest := rfl

/-- A statement of format Z. -/
theorem assemble_statementZ {m : Mnemonic} (hm : m.arity = 0) (rest : List Byte) :
    assemble (mnemonicName m ++ newline :: rest) = (assemble rest).emit m.opcode := by
  obtain ⟨htoken, hne, -⟩ := mnemonicName_token m
  rw [assemble, lex_token_newline _ htoken hne, parse_mnemonic, hm]
  rfl

/-- A statement of format U. -/
theorem assemble_statementU {m : Mnemonic} (hm : m.arity = 1) {w : List Byte} {b : Byte} (hw : IsOperandText w b)
    (rest : List Byte) :
    assemble (mnemonicName m ++ ascii ' ' :: (w ++ newline :: rest)) =
      ((assemble rest).emit b).emit m.opcode := by
  obtain ⟨htoken, hne, -⟩ := mnemonicName_token m
  rw [assemble, lex_token_space _ htoken hne, lex_token_newline _ hw.token hw.ne_nil, parse_mnemonic, hm,
    ParseState.start, parse_operand hw]
  rfl

/-- A statement of format B, with the comma between its operands. -/
theorem assemble_textB {m : Mnemonic} (hm : m.arity = 2) (d : Dest) (s : Src) (rest : List Byte) :
    assemble (textB m d s ++ newline :: rest) =
      (((assemble rest).emit s.toByte).emit d.toByte).emit m.opcode := by
  obtain ⟨htoken, hne, -⟩ := mnemonicName_token m
  have hd := isOperandText_destText d
  have hs := isOperandText_srcText s
  simp only [textB, List.append_assoc, List.cons_append, List.nil_append]
  rw [assemble, lex_token_space _ htoken hne, lex_token_comma _ hd.token hd.ne_nil,
    lex_token_newline _ hs.token hs.ne_nil, parse_mnemonic, hm, ParseState.start, parse_operand hd,
    ParseState.after, parse_operand_comma, parse_operand hs]
  rfl

/-- The line of an instruction puts its encoding before what the following lines assemble to. -/
theorem assemble_instrText_line (i : Instr) {rest image : List Byte} (h : assemble rest = .image image) :
    assemble (instrText i ++ newline :: rest) = .image (encode i ++ image) := by
  cases i with
  | mov | div | mul | add | sub | and | or | xor | nand | nor =>
    rw [instrText, assemble_textB rfl, h]
    rfl
  | not d =>
    rw [instrText, List.append_assoc, List.append_assoc, List.singleton_append,
      assemble_statementU rfl (isOperandText_destText d), h]
    rfl
  | print s =>
    rw [instrText, List.append_assoc, List.append_assoc, List.singleton_append,
      assemble_statementU rfl (isOperandText_srcText s), h]
    rfl
  | halt =>
    rw [instrText, assemble_statementZ rfl, h]
    rfl

/-- The lines assemble one after the other. No operand has to be well-formed: a token emits its byte whatever
that byte means to the core (R71, R72). -/
theorem assemble_programText (is : List Instr) : assemble (programText is) = .image (is.flatMap encode) := by
  induction is with
  | nil => rfl
  | cons i is ih =>
    have htext : programText (i :: is) = instrText i ++ newline :: programText is := by simp [programText]
    rw [htext, assemble_instrText_line i ih, List.flatMap_cons]

/-- Settles O52. -/
theorem programTextAssembles : Obligations.ProgramTextAssembles := fun is _ => assemble_programText is

/-- Settles O51: the text of an instruction is a program of one line, short of its line end. -/
theorem instructionTextAssembles : Obligations.InstructionTextAssembles := by
  intro i _
  rw [← assemble_append_newline, assemble_instrText_line i (rest := []) (image := []) rfl, List.append_nil]

/-- The five instructions of the worked assembly (R75). -/
def workedProgram : List Instr :=
  [.mov (.reg .A) (.imm 5#8), .mov (.reg .B) (.imm 3#8), .add (.reg .A) (.reg .B), .print (.reg .A), .halt]

/-- Settles O50: the text of R75 is the program text of its five instructions, short of the last line end. -/
theorem workedAssembly : Obligations.WorkedAssembly := by
  have htext : "mov A,5\nmov B,3\nadd A,B\nprint A\nhalt".toList.map ascii ++ [newline] =
      programText workedProgram := by decide
  rw [Obligations.WorkedAssembly, ← assemble_append_newline, htext]
  exact assemble_programText workedProgram

end Sys2Proof.Machine
end

section
/-! PROOFS. 30_encoding.md R74: the text pass settles a text exactly where every reading of what
91_not_in_source.md N8 leaves open agrees. -/

namespace Sys2Proof.Machine

/-- The reading that fails the text at every open point. -/
def Reading.strict : Reading where
  skipsComma _ := false
  operandByte _ := none

/-- The reading that goes on at every open point, an open operand token being some byte. -/
def Reading.lenient : Reading where
  skipsComma _ := true
  operandByte _ := some 0#8

/-- What an outcome of the text pass says of the outcomes under the readings: a settled one holds under
every reading, and an open one fails under the strict reading and not under the lenient one. -/
def AsmResult.Covers : AsmResult → (Reading → Option (List Byte)) → Prop
  | .image bytes, f => ∀ ρ, f ρ = some bytes
  | .failed, f => ∀ ρ, f ρ = none
  | .notCovered, f => f .strict = none ∧ f .lenient ≠ none

section
variable {r : AsmResult} {f g : Reading → Option (List Byte)}

theorem AsmResult.Covers.eq_failed_iff (h : r.Covers f) : r = .failed ↔ ∀ ρ, f ρ = none := by
  cases r with
  | image bytes => exact ⟨nofun, fun hf => nomatch (h .strict).symm.trans (hf .strict)⟩
  | failed => exact ⟨fun _ => h, fun _ => rfl⟩
  | notCovered => exact ⟨nofun, fun hf => absurd (hf _) h.2⟩

theorem AsmResult.Covers.eq_image_iff (h : r.Covers f) (bytes : List Byte) :
    r = .image bytes ↔ ∀ ρ, f ρ = some bytes := by
  cases r with
  | image emitted =>
    refine ⟨fun e => ?_, fun hf => ?_⟩
    · cases e
      exact h
    · rw [Option.some.inj ((h .strict).symm.trans (hf .strict))]
  | failed => exact ⟨nofun, fun hf => nomatch (h .strict).symm.trans (hf .strict)⟩
  | notCovered => exact ⟨nofun, fun hf => nomatch h.1.symm.trans (hf .strict)⟩

/-- One more byte is emitted under every reading. -/
theorem AsmResult.Covers.emit (h : r.Covers f) (b : Byte) : (r.emit b).Covers fun ρ => (f ρ).map (b :: ·) := by
  cases r with
  | image bytes => exact fun ρ => congrArg (Option.map (b :: ·)) (h ρ)
  | failed => exact fun ρ => congrArg (Option.map (b :: ·)) (h ρ)
  | notCovered => exact ⟨by simp [h.1], by simp [h.2]⟩

/-- At an open point the strict reading fails, the lenient one goes on, and none recovers from a failure
further on. -/
theorem AsmResult.Covers.openPoint (h : r.Covers f) (hstrict : g .strict = none)
    (hlenient : g .lenient = none → f .lenient = none) (hfail : ∀ ρ, f ρ = none → g ρ = none) :
    r.openPoint.Covers g := by
  cases r with
  | image bytes => exact ⟨hstrict, fun hg => by simpa [h Reading.lenient] using hlenient hg⟩
  | failed => exact fun ρ => hfail ρ (h ρ)
  | notCovered => exact ⟨hstrict, fun hg => h.2 (hlenient hg)⟩

end

/-- The parser of the text pass covers the parser under the readings, lexeme by lexeme. -/
theorem parse_covers (state : ParseState) (lexemes : List Lexeme) :
    (parse state lexemes).Covers fun ρ => parseUnder ρ state lexemes := by
  induction lexemes generalizing state with
  | nil => cases state <;> exact fun ρ => rfl
  | cons l rest ih =>
    cases state with
    | statement =>
      cases l with
      | comma =>
        exact (ih .statement).openPoint (by simp [parseUnder, Reading.strict])
          (by simp [parseUnder, Reading.lenient]) (fun ρ h => by simp [parseUnder, h])
      | word w =>
        cases hw : mnemonicOf w with
        | none => simp [parse, parseUnder, hw, AsmResult.Covers]
        | some m => simpa only [parse, parseUnder, hw] using (ih _).emit m.opcode
    | operand more commaOk =>
      cases l with
      | comma =>
        cases commaOk with
        | true => simpa [parse, parseUnder] using ih (.operand more false)
        | false =>
          exact (ih (.operand more false)).openPoint (by simp [parseUnder, Reading.strict])
            (by simp [parseUnder, Reading.lenient]) (fun ρ h => by simp [parseUnder, h])
      | word w =>
        cases hw : operandOf w with
        | byte b => simpa only [parse, parseUnder, operandUnder, hw] using (ih _).emit b
        | failed => simp [parse, parseUnder, operandUnder, hw, AsmResult.Covers]
        | notCovered =>
          simp only [parse, hw]
          exact (ih _).openPoint (by simp [parseUnder, operandUnder, hw, Reading.strict])
            (by simp [parseUnder, operandUnder, hw, Reading.lenient])
            (fun ρ h => by cases hb : ρ.operandByte w <;> simp [parseUnder, operandUnder, hw, hb, h])

/-- Settles O57, by what the outcome of the text pass covers. -/
theorem textPassSettledWhereReadingsAgree : Obligations.TextPassSettledWhereReadingsAgree := by
  intro text
  have h := parse_covers .statement (lex .text [] text)
  exact ⟨h.eq_failed_iff, h.eq_image_iff⟩

end Sys2Proof.Machine
end

section
/-! PROOFS. 40_data_move.md, with what the completed update of a destination leaves for every instruction
that has one (R54, R56, R123). -/

namespace Sys2Proof.Machine

/-! The completed update of a destination, by the two kinds of destination. -/

/-- Either kind of destination leaves the row's length and cost to the completion (R56). -/
theorem advanced_updateDest_complete (s : State) (d : Dest) (f : Byte → Byte) (m : Mnemonic) :
    Advanced m.length m.cost s ((s.updateDest d f).complete m) := by
  refine ⟨?_, ?_, s.updateDest_run d f, State.memRead_congr (s.updateDest_mem d f)⟩
  · rw [State.complete_pc_toNat, State.updateDest_pc, Mnemonic.length, Nat.add_assoc]
  · rw [State.complete_cycles_toNat, State.updateDest_cycles]

/-- A register destination is written, and nothing else but pc and cycles (R54, R55). -/
theorem wroteRegister_updateDest_complete (s : State) (r : Reg) (f : Byte → Byte) (m : Mnemonic) :
    WroteRegister r (f (s.reg r)).toNat m.length m.cost s ((s.updateDest (.reg r) f).complete m) := by
  refine ⟨?_, fun q hq => ?_, s.updateDest_out _ f, s.setReg_diag r _, advanced_updateDest_complete s _ f m⟩
  · rw [State.reg_complete, State.updateDest_reg, State.reg_setReg_self]
  · rw [State.reg_complete, State.updateDest_reg, State.reg_setReg_of_ne s _ hq]

/-- An invalid destination gives the one warning, and changes nothing else but pc and cycles (R123). -/
theorem warnedInvalid_updateDest_complete (s : State) (b : Byte) (f : Byte → Byte) (m : Mnemonic) :
    WarnedInvalid b m.length m.cost s ((s.updateDest (.invalid b) f).complete m) := by
  refine ⟨fun q => ?_, s.updateDest_out _ f, s.warnInvalidDestination_diag b, advanced_updateDest_complete s _ f m⟩
  rw [State.reg_complete, State.updateDest_invalid, State.reg_warnInvalidDestination]

/-! `mov` (R80). -/

/-- `mov` is the completed update of its destination with the resolved source, whatever stood there. -/
theorem exec_mov (d : Dest) (src : Src) (s : State) :
    exec (.mov d src) s = .next ((s.updateDest d fun _ => s.resolve src).complete .mov) := rfl

/-- Settles O9, by the two kinds of destination. -/
theorem movCopiesSource : Obligations.MovCopiesSource := by
  intro src s
  refine ⟨fun r => ?_, fun b => ?_, fun _ => rfl⟩
  · exact ⟨_, exec_mov (.reg r) src s, wroteRegister_updateDest_complete s r _ .mov⟩
  · exact ⟨_, exec_mov (.invalid b) src s, warnedInvalid_updateDest_complete s b _ .mov⟩

end Sys2Proof.Machine
end

section
/-! PROOFS. 41_arithmetic.md: `add`, `sub` and `mul`, each the completed update of its destination with a
result of the 8-bit unit (R90). -/

namespace Sys2Proof.Machine

/-! What an instruction does that is the completed update of its destination. -/

/-- An instruction that completes the update of whichever destination it is given writes the register a
valid one names (R54), and warns of an invalid one (R123). -/
theorem writes_and_warns_of_exec_updateDest {instr : Dest → Instr} {s : State} {f : Byte → Byte} {m : Mnemonic}
    {v : Reg → Nat} (hexec : ∀ d, exec (instr d) s = .next ((s.updateDest d f).complete m))
    (hv : ∀ r, (f (s.reg r)).toNat = v r) :
    (∀ r, ∃ t, exec (instr (.reg r)) s = .next t ∧ WroteRegister r (v r) m.length m.cost s t) ∧
    (∀ b, ∃ t, exec (instr (.invalid b)) s = .next t ∧ WarnedInvalid b m.length m.cost s t) := by
  refine ⟨fun r => ⟨_, hexec (.reg r), ?_⟩, fun b => ⟨_, hexec (.invalid b), ?_⟩⟩
  · rw [← hv r]
    exact wroteRegister_updateDest_complete s r f m
  · exact warnedInvalid_updateDest_complete s b f m

/-! `add` (R91). -/

/-- `add` is the completed update of its destination with the sum of its old value and the source. -/
theorem exec_add (d : Dest) (src : Src) (s : State) :
    exec (.add d src) s = .next ((s.updateDest d fun a => aluAdd a (s.resolve src)).complete .add) := rfl

/-- Settles O10: the completed update with the unit's sum. -/
theorem addWritesSum : Obligations.AddWritesSum := by
  intro src s
  obtain ⟨hwrites, hwarns⟩ := writes_and_warns_of_exec_updateDest (exec_add · src s)
    fun r => aluAdd_toNat (s.reg r) (s.resolve src)
  exact ⟨hwrites, hwarns, fun _ => rfl⟩

/-! `sub` (R92). -/

/-- `sub` is the completed update of its destination with its old value less the source. -/
theorem exec_sub (d : Dest) (src : Src) (s : State) :
    exec (.sub d src) s = .next ((s.updateDest d fun a => aluSub a (s.resolve src)).complete .sub) := rfl

/-- Settles O11: the completed update with the unit's difference. -/
theorem subWritesDifference : Obligations.SubWritesDifference := by
  intro src s
  obtain ⟨hwrites, hwarns⟩ := writes_and_warns_of_exec_updateDest (exec_sub · src s)
    fun r => aluSub_toNat (s.reg r) (s.resolve src)
  exact ⟨hwrites, hwarns, fun _ => rfl⟩

/-! `mul` (R93). -/

/-- `mul` is the completed update of its destination with the low byte of the product. -/
theorem exec_mul (d : Dest) (src : Src) (s : State) :
    exec (.mul d src) s = .next ((s.updateDest d fun a => aluMul a (s.resolve src)).complete .mul) := rfl

/-- Settles O12: the completed update with the unit's product. -/
theorem mulWritesLowByte : Obligations.MulWritesLowByte := by
  intro src s
  obtain ⟨hwrites, hwarns⟩ := writes_and_warns_of_exec_updateDest (exec_mul · src s)
    fun r => aluMul_toNat (s.reg r) (s.resolve src)
  exact ⟨hwrites, hwarns, fun _ => rfl⟩

end Sys2Proof.Machine
end

section
/-! PROOFS. 42_logic.md: `and`, `or`, `xor`, `not`, `nand` and `nor`, each the completed update of its
destination with a bitwise result of the 8-bit unit (R100). -/

namespace Sys2Proof.Machine

/-! The results of the unit: as numbers, and bit by bit (R100). -/

theorem aluAnd_toNat (a b : Byte) : (aluAnd a b).toNat = (a &&& b).toNat := rfl

theorem aluOr_toNat (a b : Byte) : (aluOr a b).toNat = (a ||| b).toNat := rfl

theorem aluXor_toNat (a b : Byte) : (aluXor a b).toNat = (a ^^^ b).toNat := rfl

theorem aluAnd_getLsbD (a b : Byte) (n : Nat) : (aluAnd a b).getLsbD n = (a.getLsbD n && b.getLsbD n) :=
  BitVec.getLsbD_and

theorem aluOr_getLsbD (a b : Byte) (n : Nat) : (aluOr a b).getLsbD n = (a.getLsbD n || b.getLsbD n) :=
  BitVec.getLsbD_or

theorem aluXor_getLsbD (a b : Byte) (n : Nat) : (aluXor a b).getLsbD n = Bool.xor (a.getLsbD n) (b.getLsbD n) :=
  BitVec.getLsbD_xor

/-- The complement is taken within 8 bits: above bit 7 it has no bit. -/
theorem aluNot_getLsbD (a : Byte) {n : Nat} (hn : n < 8) : (aluNot a).getLsbD n = !a.getLsbD n := by
  simp [aluNot, hn]

theorem aluNand_getLsbD (a b : Byte) {n : Nat} (hn : n < 8) :
    (aluNand a b).getLsbD n = !(a.getLsbD n && b.getLsbD n) := by
  rw [show aluNand a b = aluNot (aluAnd a b) from rfl, aluNot_getLsbD _ hn, aluAnd_getLsbD]

theorem aluNor_getLsbD (a b : Byte) {n : Nat} (hn : n < 8) :
    (aluNor a b).getLsbD n = !(a.getLsbD n || b.getLsbD n) := by
  rw [show aluNor a b = aluNot (aluOr a b) from rfl, aluNot_getLsbD _ hn, aluOr_getLsbD]

/-! Each instruction as the completed update of its destination. -/

theorem exec_and (d : Dest) (src : Src) (s : State) :
    exec (.and d src) s = .next ((s.updateDest d fun a => aluAnd a (s.resolve src)).complete .and) := rfl

theorem exec_or (d : Dest) (src : Src) (s : State) :
    exec (.or d src) s = .next ((s.updateDest d fun a => aluOr a (s.resolve src)).complete .or) := rfl

theorem exec_xor (d : Dest) (src : Src) (s : State) :
    exec (.xor d src) s = .next ((s.updateDest d fun a => aluXor a (s.resolve src)).complete .xor) := rfl

/-- `not` has no source: the complement looks at the old destination alone. -/
theorem exec_not (d : Dest) (s : State) : exec (.not d) s = .next ((s.updateDest d aluNot).complete .not) := rfl

theorem exec_nand (d : Dest) (src : Src) (s : State) :
    exec (.nand d src) s = .next ((s.updateDest d fun a => aluNand a (s.resolve src)).complete .nand) := rfl

theorem exec_nor (d : Dest) (src : Src) (s : State) :
    exec (.nor d src) s = .next ((s.updateDest d fun a => aluNor a (s.resolve src)).complete .nor) := rfl

/-- A bit of the register that the completed update wrote is that bit of the update's result. -/
theorem bit_of_exec_updateDest {instr : Dest → Instr} {s : State} {f : Byte → Byte} {m : Mnemonic} {r : Reg}
    {n : Nat} {bit : Bool} (hexec : ∀ d, exec (instr d) s = .next ((s.updateDest d f).complete m))
    (hbit : (f (s.reg r)).getLsbD n = bit) :
    ∃ t, exec (instr (.reg r)) s = .next t ∧ (t.reg r).getLsbD n = bit := by
  refine ⟨_, hexec (.reg r), ?_⟩
  rw [State.reg_complete, State.updateDest_reg, State.reg_setReg_self, hbit]

/-- Settles O23: the bit that each instruction's result has at the place. -/
theorem logicWorksBitByBit : Obligations.LogicWorksBitByBit := by
  intro r src s n hn
  exact ⟨bit_of_exec_updateDest (exec_and · src s) (aluAnd_getLsbD _ _ n),
    bit_of_exec_updateDest (exec_or · src s) (aluOr_getLsbD _ _ n),
    bit_of_exec_updateDest (exec_xor · src s) (aluXor_getLsbD _ _ n),
    bit_of_exec_updateDest (exec_not · s) (aluNot_getLsbD _ hn),
    bit_of_exec_updateDest (exec_nand · src s) (aluNand_getLsbD _ _ hn),
    bit_of_exec_updateDest (exec_nor · src s) (aluNor_getLsbD _ _ hn)⟩

/-- Settles O17: the completed update with the unit's AND. -/
theorem andWritesConjunction : Obligations.AndWritesConjunction := by
  intro src s
  obtain ⟨hwrites, hwarns⟩ := writes_and_warns_of_exec_updateDest (exec_and · src s)
    fun r => aluAnd_toNat (s.reg r) (s.resolve src)
  exact ⟨hwrites, hwarns, fun _ => rfl⟩

/-- Settles O18: the completed update with the unit's inclusive OR. -/
theorem orWritesDisjunction : Obligations.OrWritesDisjunction := by
  intro src s
  obtain ⟨hwrites, hwarns⟩ := writes_and_warns_of_exec_updateDest (exec_or · src s)
    fun r => aluOr_toNat (s.reg r) (s.resolve src)
  exact ⟨hwrites, hwarns, fun _ => rfl⟩

/-- Settles O19: the completed update with the unit's exclusive OR. -/
theorem xorWritesExclusiveOr : Obligations.XorWritesExclusiveOr := by
  intro src s
  obtain ⟨hwrites, hwarns⟩ := writes_and_warns_of_exec_updateDest (exec_xor · src s)
    fun r => aluXor_toNat (s.reg r) (s.resolve src)
  exact ⟨hwrites, hwarns, fun _ => rfl⟩

/-- Settles O20: the completed update with the unit's complement. -/
theorem notWritesComplement : Obligations.NotWritesComplement := by
  intro s
  obtain ⟨hwrites, hwarns⟩ := writes_and_warns_of_exec_updateDest (exec_not · s) fun r => aluNot_toNat (s.reg r)
  exact ⟨hwrites, hwarns, fun _ => rfl⟩

/-- Settles O21: the completed update with the complement of the unit's AND. -/
theorem nandWritesComplementOfAnd : Obligations.NandWritesComplementOfAnd := by
  intro src s
  obtain ⟨hwrites, hwarns⟩ := writes_and_warns_of_exec_updateDest (exec_nand · src s)
    fun r => aluNand_toNat (s.reg r) (s.resolve src)
  exact ⟨hwrites, hwarns, fun _ => rfl⟩

/-- Settles O22: the completed update with the complement of the unit's OR. -/
theorem norWritesComplementOfOr : Obligations.NorWritesComplementOfOr := by
  intro src s
  obtain ⟨hwrites, hwarns⟩ := writes_and_warns_of_exec_updateDest (exec_nor · src s)
    fun r => aluNor_toNat (s.reg r) (s.resolve src)
  exact ⟨hwrites, hwarns, fun _ => rfl⟩

end Sys2Proof.Machine
end

section
/-! PROOFS. 43_output_and_halt.md: `print` and `halt`, the two instructions with no destination (R110,
R111). -/

namespace Sys2Proof.Machine

/-! `print` (R110). -/

/-- `print` is the completed emission of its resolved source. -/
theorem exec_print (src : Src) (s : State) :
    exec (.print src) s = .next ((s.emitPrint (s.resolve src)).complete .print) := rfl

/-- The emission itself leaves pc, cycles, run and memory to the completion (R56). -/
theorem advanced_emitPrint_complete (s : State) (v : Byte) (m : Mnemonic) :
    Advanced m.length m.cost s ((s.emitPrint v).complete m) := by
  refine ⟨?_, ?_, s.emitPrint_run v, s.memRead_emitPrint v⟩
  · rw [State.complete_pc_toNat, State.emitPrint_pc, Mnemonic.length, Nat.add_assoc]
  · rw [State.complete_cycles_toNat, State.emitPrint_cycles]

/-- Settles O24: the emission appends the value, and its completion advances the machine. -/
theorem printAppendsValue : Obligations.PrintAppendsValue := by
  intro src s
  refine ⟨⟨_, exec_print src s, s.emitPrint_out _, fun q => ?_, s.emitPrint_diag (s.resolve src), ?_⟩,
    rfl⟩
  · rw [State.reg_complete, State.reg_emitPrint]
  · exact advanced_emitPrint_complete s _ .print

/-! `halt` (R111). -/

/-- `halt` is `halt_ok()`, with no completion after it. -/
theorem exec_halt (s : State) : exec .halt s = .next s.haltOk := rfl

/-- `halt_ok()` adds the cost of `halt` once, modulo 2^64 (R14). -/
theorem State.haltOk_cycles_toNat (s : State) : s.haltOk.cycles.toNat = (s.cycles.toNat + 1) % 2 ^ 64 := by
  rw [State.haltOk_cycles, BitVec.toNat_add, BitVec.toNat_ofNat]

/-- A run that `halt` ended shows success (R24). -/
theorem State.haltOk_exitStatus (s : State) : s.haltOk.exitStatus = some 0 := by
  obtain ⟨-, hsuccess, -⟩ := exitStatusOfRunState s.haltOk
  exact hsuccess.mpr s.haltOk_run

/-- Settles O25, by what `halt_ok()` leaves in each field. -/
theorem haltEndsRun : Obligations.HaltEndsRun := by
  intro s
  refine ⟨⟨_, exec_halt s, s.haltOk_cycles_toNat, s.haltOk_pc, ?_, s.haltOk_run, s.haltOk_exitStatus,
    s.reg_haltOk, s.haltOk_out, s.memRead_haltOk⟩, rfl⟩
  rw [State.haltOk_diag, State.haltOk_cycles]

end Sys2Proof.Machine
end

section
/-! PROOFS. 60_exceptions.md sections 4 and 5: the invariant that every step keeps (R123, R126, R128), where
a step exists (R126), and what a step that ends Faulted changed (R125). -/

namespace Sys2Proof.Machine

/-! The invariant of a run (R123, R126, R128). -/

/-- While Running no report is called for and no cause is named, so the log is warnings alone. -/
theorem State.inv_iff_of_running {s : State} (hrun : s.run = .running) :
    s.Inv ↔ Memory.wf s.mem = true ∧ ∀ e ∈ s.diag, e.isWarning := by
  simp [State.Inv, State.report, State.causeOk, hrun]

/-- A destination that some operand byte stands for adds at most a warning about a byte of 3 to 255 (R54,
R123). -/
theorem State.updateDest_diag_isWarning {s : State} {d : Dest} (f : Byte → Byte) (hd : d.wf = true)
    (hwarn : ∀ e ∈ s.diag, e.isWarning) : ∀ e ∈ (s.updateDest d f).diag, e.isWarning := by
  cases d with
  | reg r => rwa [State.updateDest_reg, State.setReg_diag]
  | invalid b =>
    have hb : 3 ≤ b.toNat := of_decide_eq_true hd
    rw [State.updateDest_invalid, State.warnInvalidDestination_diag, List.forall_mem_append,
      List.forall_mem_singleton]
    exact ⟨hwarn, hb⟩

/-- Settles O43, by the effects of a step: those that stay Running log at most a warning, the others append
the report that the run state they leave calls for. -/
theorem stepKeepsInvariant : Obligations.StepKeepsInvariant := by
  intro s t hinv h
  obtain ⟨hrun, heffect⟩ := step_effect h
  obtain ⟨hmem, hwarn⟩ := (State.inv_iff_of_running hrun).1 hinv
  rw [← step_mem h] at hmem
  cases heffect with
  | decodeFault hop => exact ⟨hmem, ⟨s.diag, rfl, hwarn⟩, Mnemonic.ofOpcode_eq_none.1 hop, rfl⟩
  | update m d f _ hd =>
    refine (State.inv_iff_of_running ?_).2 ⟨hmem, State.updateDest_diag_isWarning f hd hwarn⟩
    rw [State.complete_run, State.updateDest_run, hrun]
  | print src =>
    refine (State.inv_iff_of_running ?_).2 ⟨hmem, hwarn⟩
    rw [State.complete_run, State.emitPrint_run, hrun]
  | halt => exact ⟨hmem, ⟨s.diag, rfl, hwarn⟩, trivial⟩
  | divFault => exact ⟨hmem, ⟨s.diag, rfl, hwarn⟩, rfl⟩

/-! Where a step exists (R126). -/

theorem step_of_haltedOk {s : State} (hrun : s.run = .haltedOk) : step s = .fault .endedOk := by
  simp only [step, hrun]

theorem step_of_faulted {s : State} {c : FaultCause} (hrun : s.run = .faulted c) :
    step s = .fault (.endedFaulted c) := by
  simp only [step, hrun]

/-- While Running there is always a step: the decode fault, or an instruction, which always executes. -/
theorem exists_step_of_running {s : State} (hrun : s.run = .running) : ∃ t, step s = .next t := by
  cases hf : s.fetch with
  | unknown op => exact ⟨_, step_of_fetch_unknown hrun hf⟩
  | instr i =>
    rw [step_of_fetch_instr hrun hf]
    exact everyInstructionExecutes i s

/-- Settles O35. -/
theorem stepExistsExactlyWhileRunning : Obligations.StepExistsExactlyWhileRunning := fun _ =>
  ⟨⟨fun ⟨_, h⟩ => (step_effect h).1, exists_step_of_running⟩, step_of_haltedOk, fun _ => step_of_faulted⟩

/-! Taking a fault (R125). -/

/-- The operation that takes a fault has exactly the effect that R125 lists. -/
theorem tookFault_raise (s : State) (c : FaultCause) : TookFault c s (s.raise c) :=
  ⟨s.raise_run c, s.raise_diag c, s.reg_raise c, s.raise_pc c, s.raise_cycles c, s.raise_out c, s.memRead_raise c⟩

/-- A step that ends Faulted took the fault at the old state and did nothing else; its cause names pc. -/
theorem step_eq_raise_of_faulted {s t : State} {c : FaultCause} (h : step s = .next t) (hc : t.run = .faulted c) :
    t = s.raise c ∧ c.pc0 = s.pc := by
  obtain ⟨hrun, heffect⟩ := step_effect h
  cases heffect with
  | decodeFault | divFault =>
    obtain rfl := RunState.faulted.inj hc
    exact ⟨rfl, rfl⟩
  | update m d f =>
    rw [State.complete_run, State.updateDest_run, hrun] at hc
    cases hc
  | print src =>
    rw [State.complete_run, State.emitPrint_run, hrun] at hc
    cases hc
  | halt => cases hc

/-- A run that ended in a fault shows failure (R24). -/
theorem State.raise_exitStatus (s : State) (c : FaultCause) : (s.raise c).exitStatus = some 1 := rfl

/-- Settles O39: the step took the fault at the old state. -/
theorem faultsArePrecise : Obligations.FaultsArePrecise := by
  intro s t c h hc
  obtain ⟨rfl, hpc⟩ := step_eq_raise_of_faulted h hc
  exact ⟨tookFault_raise s c, hpc, s.raise_exitStatus c⟩

end Sys2Proof.Machine
end

section
/-! PROOFS. 70_reset_and_hazards.md: reset applied in any state (R150), and what a load writes, when it fails
and when it copies the raw bytes (R153 to R155, R157). -/

namespace Sys2Proof.Machine

/-! Reset (R150). -/

/-- Settles O46: the machine is Running after it, so a step exists. -/
theorem resetAtAnyTime : Obligations.ResetAtAnyTime := fun s =>
  ⟨s.reg_applyReset, s.applyReset_pc, s.applyReset_cycles, s.applyReset_run, s.applyReset_out, s.applyReset_diag,
   s.memRead_applyReset, exists_step_of_running s.applyReset_run⟩

/-! The load, by what the text pass answers (R153 to R155). -/

theorem load_none (start : Nat) (s : State) : load start none s = .failed := rfl

theorem load_of_start_outside {start : Nat} (h : 65536 ≤ start) (bytes : List Byte) (s : State) :
    load start (some bytes) s = .failed := if_pos h

theorem load_of_assemble_image {start : Nat} (hstart : start < 65536) {bytes img : List Byte}
    (h : assemble bytes = .image img) (s : State) :
    load start (some bytes) s =
      if img.length ≤ 65536 - start then .loaded (s.storeBytes (BitVec.ofNat 16 start) img) img.length false
      else .failed := by
  simp only [load, if_neg (Nat.not_le_of_lt hstart), h]
  rfl

/-- The fallback writes the raw bytes clipped to capacity (R154, 90_conflicts.md C7). -/
theorem load_of_assemble_failed {start : Nat} (hstart : start < 65536) {bytes : List Byte}
    (h : assemble bytes = .failed) (s : State) :
    load start (some bytes) s =
      .loaded (s.storeBytes (BitVec.ofNat 16 start) (bytes.take (65536 - start)))
        (min bytes.length (65536 - start)) true := by
  simp only [load, if_neg (Nat.not_le_of_lt hstart), h, capacity, loadImage, List.length_take, Nat.min_comm]

/-- Settles O53: a load is consecutive writes of its image, below the top of memory. -/
theorem loadWritesImage : Obligations.LoadWritesImage := by
  intro start bytes s t n fellBack h
  obtain ⟨img, hfits, rfl, rfl, hsource⟩ := load_cases h
  obtain ⟨hwritten, hframe, hfields⟩ := s.storeBytes_spec img start hfits
  refine ⟨img, rfl, hfits, fun htext => ?_, fun hraw => ?_, hwritten, hframe, hfields⟩
  · obtain ⟨-, himage⟩ | ⟨hraw, -⟩ := hsource
    · exact himage
    · exact absurd (htext.symm.trans hraw) Bool.false_ne_true
  · obtain ⟨htext, -⟩ | ⟨-, hcopy⟩ := hsource
    · exact absurd (htext.symm.trans hraw) Bool.false_ne_true
    · exact hcopy

/-- Settles O54: an assembled stream fails by its length alone, and the fallback never fails. -/
theorem loadFailures : Obligations.LoadFailures := by
  intro start s
  refine ⟨load_none start s, fun bytes => ⟨fun hstart => load_of_start_outside hstart bytes s,
    fun hstart img himage => ?_, fun hstart hfailed => ⟨_, load_of_assemble_failed hstart hfailed s⟩⟩⟩
  rw [load_of_assemble_image hstart himage]
  split
  · exact ⟨nofun, fun hover => by omega⟩
  · exact ⟨fun _ => by omega, fun _ => rfl⟩

/-- Settles O55: both write the encodings, the text as its assembled stream and the bytecode as a raw copy that
needs no clipping. -/
theorem textAndBytecodeLoadAlike : Obligations.TextAndBytecodeLoadAlike := by
  intro start is s _ hstart hfits hbinary
  refine ⟨s.storeBytes (BitVec.ofNat 16 start) (is.flatMap encode), ?_, ?_⟩
  · rw [load_of_assemble_image hstart (assemble_programText is), if_pos hfits]
  · rw [load_of_assemble_failed hstart hbinary, List.take_of_length_le hfits, Nat.min_eq_left hfits]

/-! A first token that is no mnemonic (R74, R154). -/

theorem parse_unknown_mnemonic {w : List Byte} (h : mnemonicOf w = none) (rest : List Lexeme) :
    parse .statement (.word w :: rest) = .failed := by
  simp only [parse, h]

/-- Commas where a statement may begin are open points, and none recovers from a failure after them. -/
theorem parse_commas_of_failed (commas : Nat) {rest : List Lexeme} (h : parse .statement rest = .failed) :
    parse .statement (List.replicate commas .comma ++ rest) = .failed := by
  induction commas with
  | zero => exact h
  | succ commas ih => exact (AsmResult.openPoint_eq_failed _).2 ih

/-- Settles O58: the text pass fails at the first token, so the load falls back. -/
theorem unknownFirstTokenLoadsRaw : Obligations.UnknownFirstTokenLoadsRaw := by
  intro start commas bytes w rest s hstart hlex hw
  have hfailed : assemble bytes = .failed := by
    rw [assemble, hlex]
    exact parse_commas_of_failed commas (parse_unknown_mnemonic hw rest)
  exact load_of_assemble_failed hstart hfailed s

end Sys2Proof.Machine
end

section
/-! PROOFS. 41_arithmetic.md: `div` (R94), by the test of its divisor, which comes before the destination
(R124). -/

namespace Sys2Proof.Machine

/-! `div` by a divisor that is not 0. -/

/-- `div` is then the completed update of its destination with the quotient of its old value by the source. -/
theorem exec_div_of_ne_zero {src : Src} {s : State} (h : s.resolve src ≠ 0#8) (d : Dest) :
    exec (.div d src) s = .next ((s.updateDest d fun a => aluDiv a (s.resolve src)).complete .div) := if_neg h

/-- Settles O13: the completed update with the unit's quotient. -/
theorem divWritesQuotient : Obligations.DivWritesQuotient := by
  intro src s h
  obtain ⟨hwrites, hwarns⟩ := writes_and_warns_of_exec_updateDest (exec_div_of_ne_zero h)
    fun r => aluDiv_toNat (s.reg r) (s.resolve src)
  exact ⟨hwrites, hwarns, fun _ => rfl⟩

/-- The byte 0 as a source names register A, so no encodable immediate is 0 (R53). -/
theorem State.resolve_imm_ne_zero (s : State) {v : Byte} (h : (Src.imm v).wf = true) : s.resolve (.imm v) ≠ 0#8 := by
  have hv : 3 ≤ v.toNat := of_decide_eq_true h
  rw [State.resolve_imm]
  rintro rfl
  exact absurd hv (by decide)

/-- Settles O16: the divisor is not 0, and the completed update advances whatever the destination. -/
theorem divByImmediateCompletes : Obligations.DivByImmediateCompletes := by
  intro d v s h
  exact ⟨_, exec_div_of_ne_zero (s.resolve_imm_ne_zero h) d, advanced_updateDest_complete s d _ .div⟩

/-! `div` by 0 (R122). -/

theorem exec_div_of_eq_zero {src : Src} {s : State} (h : s.resolve src = 0#8) (d : Dest) :
    exec (.div d src) s = .next (divByZero d s) := if_pos h

theorem divByZero_reg (r : Reg) (s : State) : divByZero (.reg r) s = s.raise (.divideByZero s.pc) := rfl

theorem divByZero_invalid_of_fault (h : Config.divZeroWithInvalidDest = .fault) (b : Byte) (s : State) :
    divByZero (.invalid b) s = s.raise (.divideByZero s.pc) := by
  simp only [divByZero, h]

/-- The warning is the one that any update of an invalid destination gives, whatever its result (R123). -/
theorem divByZero_invalid_of_warn (h : Config.divZeroWithInvalidDest = .warn) (b : Byte) (f : Byte → Byte)
    (s : State) : divByZero (.invalid b) s = (s.updateDest (.invalid b) f).complete .div := by
  simp only [divByZero, h, State.updateDest_invalid]

/-- Settles O14: a register destination leaves only the fault. -/
theorem divByZeroFaults : Obligations.DivByZeroFaults := by
  intro r src s h
  refine ⟨_, exec_div_of_eq_zero h (.reg r), ?_⟩
  rw [divByZero_reg]
  exact tookFault_raise s _

/-- Settles O15, by the two values of DIV_ZERO_WITH_INVALID_DEST (D5). -/
theorem divByZeroWithInvalidDestination : Obligations.DivByZeroWithInvalidDestination := by
  intro b src s h
  refine ⟨_, exec_div_of_eq_zero h (.invalid b), ?_⟩
  cases hchoice : Config.divZeroWithInvalidDest with
  | fault =>
    rw [divByZero_invalid_of_fault hchoice]
    exact tookFault_raise s _
  | warn =>
    rw [divByZero_invalid_of_warn hchoice b id]
    exact warnedInvalid_updateDest_complete s b id .div

end Sys2Proof.Machine
end

section
/-! PROOFS. 70_reset_and_hazards.md section 3: the two instructions that load 0 (R160), by the result the
8-bit unit gives for equal operands. -/

namespace Sys2Proof.Machine

theorem aluXor_self_toNat (a : Byte) : (aluXor a a).toNat = 0 := by
  rw [aluXor_toNat, BitVec.xor_self, BitVec.toNat_zero]

theorem aluSub_self_toNat (a : Byte) : (aluSub a a).toNat = 0 := by
  rw [aluSub_toNat, if_pos le_rfl, Nat.sub_self]

/-- Settles O26: each is the completed update of the register with the unit's result on its own old value. -/
theorem selfXorAndSelfSubClear : Obligations.SelfXorAndSelfSubClear := by
  intro r s
  refine ⟨⟨_, exec_xor (.reg r) (.reg r) s, ?_⟩, ⟨_, exec_sub (.reg r) (.reg r) s, ?_⟩⟩
  · rw [State.resolve_reg, ← aluXor_self_toNat (s.reg r)]
    exact wroteRegister_updateDest_complete s r (aluXor · (s.reg r)) .xor
  · rw [State.resolve_reg, ← aluSub_self_toNat (s.reg r)]
    exact wroteRegister_updateDest_complete s r (aluSub · (s.reg r)) .sub

end Sys2Proof.Machine
end
